-- ==== Sys2Proof/Word.lean ====
section
/-! DEFINITION. The word types of the FSR (R9: every value is unsigned). -/

namespace Sys2Proof

/-- One byte: the addressable unit of every byte space of the FSR (R40). -/
abbrev Byte := BitVec 8

/-- A 4-bit value: the packet kind tag (R61). -/
abbrev Nibble := BitVec 4

/-- A 16-bit value: the declared total length (R41). -/
abbrev Half := BitVec 16

end Sys2Proof
end

