-- ==== Sys2Proof/Config.lean ====
section
/-! DEFINITION. What one FSR instance fixes: the constants of R6, the parameters of R7, and the two values the spec leaves
to a free draw (R46: the sink's answer; R150 and 93_implementation_defined.md I4: `rbuf` after power-on). -/

namespace Sys2Proof.Config

/-- R6, `MTU`: the largest frame, in bytes. -/
@[simp] abbrev mtu : Nat := 255

/-- R6, `HDR_LEN`: the header of every frame, in bytes. -/
@[simp] abbrev hdrLen : Nat := 4

/-- R6, `CHUNK`: the largest body, in bytes. -/
@[simp] abbrev chunk : Nat := 251

/-- R7: the most bytes that 256 distinct fragment positions can address, 256 × 251. -/
@[simp] abbrev maxPacket : Nat := 64256

/-- R40, R70: the largest payload operand a `SEG.*` command carries (the length field is 16 bits wide). -/
@[simp] abbrev maxPayload : Nat := 65535

/-- The parameters of one instance (R7). -/
structure Params where
  /-- `REASM_CAP`: the byte capacity of the Reassembly Buffer. -/
  reasmCap : Nat
  /-- `SEG_MAX_LEN`: the largest logical packet the segmenter accepts. -/
  segMaxLen : Nat
  /-- `KIND_REPORT`: the kind tag of a Report. -/
  kindReport : Nibble
  /-- `KIND_SCHEMA`: the kind tag of a SchemaAnnounce. -/
  kindSchema : Nibble
  deriving DecidableEq, Repr

/-- The ranges of R7. -/
def Params.wf (p : Params) : Bool :=
  decide (251 ≤ p.reasmCap) && decide (p.reasmCap ≤ maxPacket) && decide (p.segMaxLen ≤ maxPacket)
    && decide (p.kindSchema ≠ p.kindReport)

/-- The values R7 takes when no other is given. -/
def defaults : Params :=
  { reasmCap := 512, segMaxLen := 64256, kindReport := 0x0, kindSchema := 0x1 }

/-- The two answers of the byte-sink (R46). -/
inductive SinkAnswer where
  | ok
  | sinkError
  deriving DecidableEq, Repr, Inhabited

/-- FREE VALUE (R46, D31; notes/assumptions/6.md): the sink's answer to the n-th `Transmit` call since power-on, where the
environment's script (`State.sinkTurns`) does not give it. No law relates one answer to another. -/
opaque sinkDraw : Nat → SinkAnswer

/-- FREE VALUE (R150, I4; notes/assumptions/5.md): what offset `a` of `rbuf` holds after power-on. Drawn once, then held. -/
opaque rbufPowerOn : Nat → Byte

end Sys2Proof.Config
end

