-- ==== Sys2Proof/Syntax.lean ====
section
/-! DEFINITION. The instructions: one constructor for each row of spec/opcode_table.json, and the requests that carry
their bytes into the block. -/

namespace Sys2Proof

/-- The rows of the opcode table: four commands (R70) and the two frame forms (R62, R63). The reserved bits 7:5 of header
byte 1 and the unused byte 2 of a continuation frame are kept, so that an encoding determines its bytes. -/
inductive Instr where
  /-- `SEG.REPORT P` (R83). -/
  | segReport (payload : List Byte)
  /-- `SEG.SCHEMA P` (R84). -/
  | segSchema (payload : List Byte)
  /-- `RX.FRAME F` (R100): a frame of any length. -/
  | rxFrame (frame : List Byte)
  /-- `RESET` (R150). -/
  | reset
  /-- `FRAME.LEAD` (R62, R104): a leading frame, its header fields and its body. -/
  | frameLead (seq : Byte) (kindTag : Nibble) (reserved : BitVec 3) (length : Half) (body : List Byte)
  /-- `FRAME.CONT` (R63, R105): a continuation frame, its header fields and its body. -/
  | frameCont (seq : Byte) (kindTag : Nibble) (reserved : BitVec 3) (unused leadRef : Byte) (body : List Byte)
  deriving DecidableEq, Repr

/-- The two ways in: the command interface (R70), and the byte-source, whose driver invokes `RX.FRAME` once for each
frame that arrives (R47). -/
inductive Port where
  | command
  | source
  deriving DecidableEq, Repr

/-- One thing the outside asks of the block: a command (selector, then operand), or an inbound frame. The bytes come as
one delimited unit; no field gives a frame's length (R69). -/
structure Request where
  port : Port
  bytes : List Byte
  deriving DecidableEq, Repr

end Sys2Proof
end

