-- ==== Sys2Proof/WellFormed.lean ====
section
/-! DEFINITION. Which terms of `Instr` have an encoding: the operand ranges of R70 and the body length of R60. -/

namespace Sys2Proof

/-- R70: a payload has 0 to 65535 bytes, a frame operand of `RX.FRAME` any number. R60: a frame's body has 0 to 251. -/
def Instr.wellFormed : Instr → Bool
  | .segReport payload => decide (payload.length ≤ Config.maxPayload)
  | .segSchema payload => decide (payload.length ≤ Config.maxPayload)
  | .rxFrame _ => true
  | .reset => true
  | .frameLead _ _ _ _ body => decide (body.length ≤ Config.chunk)
  | .frameCont _ _ _ _ _ body => decide (body.length ≤ Config.chunk)

end Sys2Proof
end

