-- ==== Sys2Proof/Decode.lean ====
section
/-! DEFINITION. Decoding a request (30_encoding.md), total on any bytes and rejecting by name; after it the encoder, and
the host's view of the opcode table's words. -/

namespace Sys2Proof

/-! ## The fields of a frame (R61 to R64, R68) -/

/-- Header byte `h[i]` of a frame (R10). -/
def frameByte (frame : List Byte) (i : Nat) : Byte := frame.getD i 0

/-- The four header bytes as one little-endian number (R64). -/
def headerWord (frame : List Byte) : BitVec 32 :=
  frameByte frame 3 ++ (frameByte frame 2 ++ (frameByte frame 1 ++ frameByte frame 0))

/-- `seq = h[0]` (R61, R68). -/
def frameSeq (frame : List Byte) : Byte := frameByte frame 0

/-- `kindTag = h[1] & 0x0F` (R61, R68). -/
def frameKind (frame : List Byte) : Nibble := (frameByte frame 1).extractLsb' 0 4

/-- The continuation flag, bit 4 of `h[1]` (R61, R65). -/
def frameIsCont (frame : List Byte) : Bool := (frameByte frame 1).getLsbD 4

/-- The reserved bits 7:5 of `h[1]` (R61, R66). -/
def frameReserved (frame : List Byte) : BitVec 3 := (frameByte frame 1).extractLsb' 5 3

/-- The declared total length of a leading frame, little-endian in `h[2]`, `h[3]` (R41, R62). -/
def frameLength (frame : List Byte) : Half := frameByte frame 3 ++ frameByte frame 2

/-- Byte 2 of a continuation frame, unused (R63, R66). -/
def frameUnused (frame : List Byte) : Byte := frameByte frame 2

/-- The back-reference of a continuation frame, `leadRef = h[3]` (R63, R68). -/
def frameLeadRef (frame : List Byte) : Byte := frameByte frame 3

/-- The body `F[4..n)` (R60, R68). -/
def frameBody (frame : List Byte) : List Byte := frame.drop Config.hdrLen

/-! ## Decoding -/

/-- Why bytes are no instruction. -/
inductive Reject where
  /-- A reserved selector (R71): the machine answers `IllegalCommand`. -/
  | reservedSelector (op : Byte)
  /-- An inbound frame outside 4 to 255 bytes (R101): the machine answers `MalformedFrame`. -/
  | frameLength (n : Nat)
  /-- A command without a selector byte: no command of R70. -/
  | noSelector
  /-- `RESET` followed by bytes: R70 gives it no operand. -/
  | resetOperand (n : Nat)
  /-- A payload operand over 65535 bytes, outside R70's range: the machine answers `PayloadTooLarge`. -/
  | payloadLength (n : Nat)
  deriving DecidableEq, Repr

/-- R65: the form of an admitted frame is chosen by the continuation flag alone; R101: a frame outside 4 to 255 bytes is
not admitted. -/
def decodeFrame (frame : List Byte) : Except Reject Instr :=
  if frame.length < Config.hdrLen ∨ Config.mtu < frame.length then
    .error (.frameLength frame.length)
  else if frameIsCont frame then
    .ok (.frameCont (frameSeq frame) (frameKind frame) (frameReserved frame) (frameUnused frame)
      (frameLeadRef frame) (frameBody frame))
  else
    .ok (.frameLead (frameSeq frame) (frameKind frame) (frameReserved frame) (frameLength frame)
      (frameBody frame))

/-- R70: the selector 0x10 of `SEG.REPORT`. -/
abbrev opSegReport : Byte := 0x10
/-- R70: the selector 0x11 of `SEG.SCHEMA`. -/
abbrev opSegSchema : Byte := 0x11
/-- R70: the selector 0x20 of `RX.FRAME`. -/
abbrev opRxFrame : Byte := 0x20
/-- R70: the selector 0xF0 of `RESET`. -/
abbrev opReset : Byte := 0xF0

/-- A payload operand within R70's range, or the rejection that names its length. -/
def decodePayload (make : List Byte → Instr) (payload : List Byte) : Except Reject Instr :=
  if Config.maxPayload < payload.length then .error (.payloadLength payload.length) else .ok (make payload)

/-- R70, R71: one selector byte, then the command's operand when it has one. -/
def decodeCommand : List Byte → Except Reject Instr
  | [] => .error .noSelector
  | op :: operand =>
    if op = opSegReport then decodePayload .segReport operand
    else if op = opSegSchema then decodePayload .segSchema operand
    else if op = opRxFrame then .ok (.rxFrame operand)
    else if op = opReset then
      if operand.isEmpty then .ok .reset else .error (.resetOperand operand.length)
    else .error (.reservedSelector op)

/-- The instruction a request carries. -/
def decode (r : Request) : Except Reject Instr :=
  match r.port with
  | .command => decodeCommand r.bytes
  | .source => decodeFrame r.bytes

/-- The frame of a request that is an `RX.FRAME` operation: a frame the byte-source hands over (R47), or the command with
selector 0x20 (R70). -/
def Request.inboundFrame (r : Request) : Option (List Byte) :=
  match r.port, r.bytes with
  | .source, frame => some frame
  | .command, [] => none
  | .command, op :: operand => if op = opRxFrame then some operand else none

/-! ## Encoding -/

/-- The bytes of a leading frame (R61, R62). -/
def leadBytes (seq : Byte) (kindTag : Nibble) (reserved : BitVec 3) (length : Half) (body : List Byte) : List Byte :=
  seq :: (reserved ++ (0#1 ++ kindTag)) :: length.extractLsb' 0 8 :: length.extractLsb' 8 8 :: body

/-- The bytes of a continuation frame (R61, R63). -/
def contBytes (seq : Byte) (kindTag : Nibble) (reserved : BitVec 3) (unused leadRef : Byte) (body : List Byte) :
    List Byte :=
  seq :: (reserved ++ (1#1 ++ kindTag)) :: unused :: leadRef :: body

/-- The request that carries an instruction: a command on the command interface (R70), a frame form on the byte-source
(R60 to R63). -/
def encode : Instr → Request
  | .segReport payload => ⟨.command, opSegReport :: payload⟩
  | .segSchema payload => ⟨.command, opSegSchema :: payload⟩
  | .rxFrame frame => ⟨.command, opRxFrame :: frame⟩
  | .reset => ⟨.command, [opReset]⟩
  | .frameLead seq kindTag reserved length body => ⟨.source, leadBytes seq kindTag reserved length body⟩
  | .frameCont seq kindTag reserved unused leadRef body =>
    ⟨.source, contBytes seq kindTag reserved unused leadRef body⟩

/-! ## The opcode table's words -/

/-- The `n` bytes of a word, its least significant byte first. -/
def wordBytes : Nat → Nat → List Byte
  | 0, _ => []
  | n + 1, w => BitVec.ofNat 8 w :: wordBytes n (w / 256)

/-- The operand of zeros a command row is given when the table's word is its selector alone (notes/assumptions/13.md): an
empty payload, the shortest admitted frame, nothing. -/
def zeroOperand (op : Byte) : List Byte := if op = opRxFrame then [0, 0, 0, 0] else []

/-- The request a word of the opcode table stands for: the rows of 32 bits are frame headers (R64), the rows of 8 bits
command selectors (R70). -/
def tableRequest (nbits w : Nat) : Request :=
  if nbits = 32 then ⟨.source, wordBytes 4 w⟩
  else if nbits = 8 then ⟨.command, BitVec.ofNat 8 w :: zeroOperand (BitVec.ofNat 8 w)⟩
  else ⟨.command, wordBytes (nbits / 8) w⟩

/-- What the decoder reads from a word of the opcode table. -/
def decodeTableWord (nbits w : Nat) : Option Instr :=
  match decode (tableRequest nbits w) with
  | .ok i => some i
  | .error _ => none

end Sys2Proof
end

