-- ==== Sys2Proof/Machine/State.lean ====
section
/-! DEFINITION. The state of one FSR instance (R20, R31), what an operation reports (R130), what it sends out (R46, R48,
R49), what comes in, and the state after power-on. -/

namespace Sys2Proof.Machine

open Sys2Proof

/-- The 1-bit register `phase` (R23). `Complete` never outlives the operation that reaches it, so it is not stored. -/
inductive Phase where
  | idle
  | accumulating
  deriving DecidableEq, Repr

/-- The Reassembly Buffer `rbuf` (R26): the bytes written since power-on, as (offset, byte) pairs, offsets rising. An
offset that is not listed has not been written; what it then holds is `Config.rbufPowerOn` (notes/assumptions/5.md). -/
abbrev Memory := List Host.Cell

/-- The eight statuses of R130, each with the information R130 records. -/
inductive Status where
  | ok
  | sequenceGap (seq : Byte)
  | reassemblyOverflow (n : Nat)
  | sinkError (k : Nat)
  | frameTooLarge (n : Nat)
  | payloadTooLarge (n : Nat)
  | malformedFrame (n : Nat)
  | illegalCommand (op : Byte)
  deriving DecidableEq, Repr

/-- What an operation returns (R49): a status, or, for `RX.FRAME`, a status and `completed`. -/
inductive Result where
  | status (st : Status)
  | rx (st : Status) (completed : Bool)
  deriving DecidableEq, Repr

/-- Whom a result goes to (R137, R138): the caller of the operation, or, for an `RX.FRAME` called from inside `Transmit`,
the sink's code. -/
inductive Caller where
  | driver
  | sink
  deriving DecidableEq, Repr

/-- An ordered output of an operation (R12): a `Transmit` call (R46), a `Dispatch` call (R48), a result (R49). -/
inductive Output where
  | transmit (frame : List Byte)
  | dispatch (tag : Nibble) (payload : List Byte)
  | returned (caller : Caller) (result : Result)
  deriving DecidableEq, Repr

/-- What the environment does during one `Transmit` call (R46, R153): the calls the sink's code makes into this instance
before it answers, then its answer. No answer stands for a sink that never returns (I5). -/
structure SinkTurn where
  calls : List Request
  reply : Option Config.SinkAnswer
  deriving DecidableEq, Repr

/-- Why the machine is stuck. -/
inductive Fault where
  /-- Raised by `SEG.REPORT` and `SEG.SCHEMA` when the sink never returns from a `Transmit` call: the operation is stuck
  and a model must not let it finish (D1, I5). Safe: the run ends where the block would wait for ever. -/
  | sinkNeverReturns
  deriving DecidableEq, Repr

/-- Why the model gives a request no meaning. -/
inductive Refusal where
  /-- An instruction without a meaning, by its mnemonic. No arm of `exec` answers it. Safe. -/
  | notModelled (mnemonic : String)
  /-- Raised by `SEG.REPORT` and `SEG.SCHEMA` when the sink's code calls something other than `RX.FRAME` from inside
  `Transmit`: R153 puts the overlap outside the rules and has a model refuse it. Safe. -/
  | overlappingOperation
  /-- Raised by `step` on a command without a selector byte, which R70 does not know. Safe. -/
  | noSelector
  /-- Raised by `step` on a `RESET` selector followed by bytes; R70 gives `RESET` no operand. Safe. -/
  | resetOperand
  deriving DecidableEq, Repr

/-- One instance and its surroundings. The first six fields are the spec's state, and all of it (R20, R31). `params` are
the parameters of R7, which no operation changes. The last four are the model's own: what comes in, and what has gone
out. -/
@[ext]
structure State where
  /-- The sequence number of the next frame the segmenter builds (R21). -/
  outSeqNum : Byte
  /-- The sequence number the reassembler expects (R22). -/
  inSeqNum : Byte
  /-- The control state of the reassembler (R23). -/
  phase : Phase
  /-- The declared total length of the packet in reassembly (R24). -/
  declLen : Half
  /-- The kind tag of the last accepted leading frame (R25). -/
  rxKind : Nibble
  /-- The Reassembly Buffer (R26). -/
  rbuf : Memory
  /-- The parameters of the instance (R7). -/
  params : Config.Params
  /-- INPUT: the operations the outside invokes, in the order it invokes them (R50). -/
  pending : List Request
  /-- INPUT: what the sink does during the coming `Transmit` calls. A call beyond the list is answered by
  `Config.sinkDraw`. -/
  sinkTurns : List SinkTurn
  /-- How many `Transmit` calls have been made: the counter the free draw of the sink's answer is applied to. -/
  sinkCalls : Nat
  /-- OUTPUT: what the instance has sent out, oldest first. -/
  outputs : List Output
  deriving DecidableEq, Repr

/-- After power-on (R31, R150): the registers at their reset values, `rbuf` with nothing written, the parameters R7 takes
when no other is given, nothing asked and nothing sent yet. -/
def State.reset : State :=
  { outSeqNum := 0x00
    inSeqNum := 0x00
    phase := .idle
    declLen := 0x0000
    rxKind := 0x0
    rbuf := []
    params := Config.defaults
    pending := []
    sinkTurns := []
    sinkCalls := 0
    outputs := [] }

end Sys2Proof.Machine
end

