-- ==== Sys2Proof/Machine/Ops.lean ====
section
/-! DEFINITION. The shared operations: reading and writing `rbuf` (R11, R44), the register updates, sending an output,
returning a result (R11 `return` and `raise`, R137), and taking the next request. -/

namespace Sys2Proof.Machine

open Sys2Proof

/-! ## The Reassembly Buffer -/

/-- The byte written at offset `a`, if one has been written since power-on. -/
def Memory.read : Memory → Nat → Option Byte
  | [], _ => none
  | c :: m, a => if c.1 = a then some c.2 else Memory.read m a

/-- What offset `a` holds: the byte last written, and before any write the power-on value (R150, I4). -/
def Memory.byteAt (m : Memory) (a : Nat) : Byte :=
  match m.read a with
  | some b => b
  | none => Config.rbufPowerOn a

/-- The cells of a block of bytes that starts at offset `a`. -/
def cellsFrom : Nat → List Byte → Memory
  | _, [] => []
  | a, b :: bs => (a, b) :: cellsFrom (a + 1) bs

/-- `MemWrite(a, n, s)` (R11, R44): the bytes `bs` at offsets `a` up to `a + bs.length - 1`, every other offset kept. -/
def Memory.write (m : Memory) (a : Nat) (bs : List Byte) : Memory :=
  m.filter (fun c => decide (c.1 < a)) ++ (cellsFrom a bs ++ m.filter (fun c => decide (a + bs.length ≤ c.1)))

/-- The canonical form: offsets strictly rising. (A listed byte never equals what an unlisted offset reads as in
`Memory.read`, which is no byte.) -/
abbrev Memory.wf (m : Memory) : Prop := m.Pairwise (fun c d => c.1 < d.1)

/-- Every listed offset lies in the buffer (R26, R40). -/
abbrev Memory.within (m : Memory) (cap : Nat) : Prop := ∀ c ∈ m, c.1 < cap

/-- `MemRead(a, n)` (R11, R44). -/
def Memory.readRange (m : Memory) (a n : Nat) : List Byte := (List.range n).map (fun i => m.byteAt (a + i))

/-! ## Register updates, one name for each -/

/-- The segmenter has numbered a frame: `outSeqNum <- (outSeqNum + 1) mod 256` (R21). -/
def State.countFrame (s : State) : State := { s with outSeqNum := s.outSeqNum + 1 }

/-- An accepted frame: `inSeqNum <- (seq + 1) mod 256` (R106). -/
def State.expectAfter (s : State) (seq : Byte) : State := { s with inSeqNum := seq + 1 }

/-- `phase <- p` (R23). -/
def State.enterPhase (s : State) (p : Phase) : State := { s with phase := p }

/-- An accepted leading frame: `declLen <- length`, `rxKind <- tag` (R104). -/
def State.latchLead (s : State) (length : Half) (tag : Nibble) : State :=
  { s with declLen := length, rxKind := tag }

/-- `MemWrite(a, len(bs), bs)` on `rbuf` (R44). -/
def State.storeAt (s : State) (a : Nat) (bs : List Byte) : State := { s with rbuf := s.rbuf.write a bs }

/-- The register values of `RESET` (R150). -/
def State.clearRegisters (s : State) : State :=
  { s with outSeqNum := 0x00, inSeqNum := 0x00, phase := .idle, declLen := 0x0000, rxKind := 0x0 }

/-- The next `Transmit` call uses the first turn of the script, if there is one, and is counted. -/
def State.takeTurn (s : State) : State := { s with sinkTurns := s.sinkTurns.tail, sinkCalls := s.sinkCalls + 1 }

/-- The request at the head of the queue has been taken. -/
def State.dropRequest (s : State) : State := { s with pending := s.pending.tail }

/-- An output leaves the instance, after the ones before it. -/
def State.emit (s : State) (o : Output) : State := { s with outputs := s.outputs ++ [o] }

/-! ## Ending an operation -/

/-- The one way an operation ends (R11 `return`, `raise`; R137: the result goes to its caller and nothing else happens; no
trap, no handler, no saved state). -/
def State.giveBack (s : State) (caller : Caller) (r : Result) : State := s.emit (.returned caller r)

/-- `raise S(info)` or `return S` of a `SEG.*` operation, `RESET` or a reserved selector (R49). -/
def State.endWith (s : State) (st : Status) : State := s.giveBack .driver (.status st)

/-- `raise S(info)` of `RX.FRAME`: `completed` is false with every status but `Ok` (R130). -/
def State.reject (s : State) (caller : Caller) (st : Status) : State := s.giveBack caller (.rx st false)

/-- `Dispatch(rxKind, MemRead(0, declLen))`, then `phase <- Idle`, then `(Ok, completed = true)` (R107). -/
def State.complete (s : State) (caller : Caller) : State :=
  ((s.emit (.dispatch s.rxKind (s.rbuf.readRange 0 s.declLen.toNat))).enterPhase .idle).giveBack caller (.rx .ok true)

/-! ## Taking the next request -/

/-- The next request, and the state from which it runs (R50). -/
def State.fetch (s : State) : Option (Request × State) :=
  match s.pending with
  | [] => none
  | r :: _ => some (r, s.dropRequest)

/-- What becomes of a request that is no instruction: R71 for a reserved selector, R101 for an inbound frame of a length
outside 4 to 255, `PayloadTooLarge` for a payload that R70's range does not hold (R70: a payload over `SEG_MAX_LEN` is
refused by the operation; notes/assumptions/10.md), and a refusal by name for bytes that are no command of R70. -/
def rejectRequest (e : Reject) (s : State) : Host.Outcome State Fault Refusal :=
  match e with
  | .reservedSelector op => .next (s.endWith (.illegalCommand op))
  | .frameLength n => .next (s.reject .driver (.malformedFrame n))
  | .noSelector => .refused .noSelector
  | .resetOperand _ => .refused .resetOperand
  | .payloadLength n => .next (s.endWith (.payloadTooLarge n))

end Sys2Proof.Machine
end

