-- ==== Sys2Proof/Machine/Control.lean ====
section
/-! DEFINITION. `RESET` (70_reset_and_hazards.md). -/

namespace Sys2Proof.Machine

/-- `RESET` (R150): the five registers at their reset values, `rbuf` kept, `Ok` returned. -/
def execReset (s : State) : Host.Outcome State Fault Refusal :=
  .next (s.clearRegisters.endWith .ok)

end Sys2Proof.Machine
end

