-- ==== Sys2Proof/Machine/Flags.lean ====
section
/-! DEFINITION. The FSR has no condition flags (R27); what an operation reports is a status. Here: the numeric codes of R130,
the encoding of `phase` (R23), and the status the sink's answer gives. -/

namespace Sys2Proof.Machine

open Sys2Proof

/-- The numeric code of a status (R130). -/
def Status.code : Status → Nat
  | .ok => 0
  | .sequenceGap _ => 1
  | .reassemblyOverflow _ => 2
  | .sinkError _ => 3
  | .frameTooLarge _ => 4
  | .payloadTooLarge _ => 5
  | .malformedFrame _ => 6
  | .illegalCommand _ => 7

/-- The encoding of `phase` (R23). -/
def Phase.code : Phase → BitVec 1
  | .idle => 0
  | .accumulating => 1

/-- The status a `SEG.*` operation ends with when its last `Transmit` call, for frame k, has been answered (R82). -/
def answerStatus (k : Nat) : Config.SinkAnswer → Status
  | .ok => .ok
  | .sinkError => .sinkError k

end Sys2Proof.Machine
end

