-- ==== Sys2Proof/Machine/Operands.lean ====
section
/-! DEFINITION. The operands of the operations: the pieces of a payload that the segmenter puts into frames (R80, R81), and
the position of a fragment in `rbuf` (R68, R105). The header fields themselves are in Decode.lean. -/

namespace Sys2Proof.Machine

open Sys2Proof

/-- N(L), the number of frames of a packet of L bytes (R80). -/
def frameCount (len : Nat) : Nat :=
  if len < Config.chunk then 1 else len / Config.chunk + (if len % Config.chunk ≠ 0 then 1 else 0)

/-- `P[251k .. min(251k + 251, L))`, the body of frame k (R81). -/
def segBody (payload : List Byte) (k : Nat) : List Byte := (payload.drop (Config.chunk * k)).take Config.chunk

/-- The frame the segmenter builds at index k, `h0` being its sequence number and `s0` that of the leading frame (R82). -/
def segFrame (payload : List Byte) (tag : Nibble) (s0 h0 : Byte) (k : Nat) : List Byte :=
  if k = 0 then
    leadBytes h0 tag 0 (BitVec.ofNat 16 payload.length) (segBody payload k)
  else
    contBytes h0 tag 0 0x00 s0 (segBody payload k)

/-- `fragIdx = (seq - leadRef) mod 256` (R68). -/
def fragIdx (seq leadRef : Byte) : Nat := (seq - leadRef).toNat

/-- `base = 251 × fragIdx`, where a continuation frame's body is written (R105). -/
def fragBase (seq leadRef : Byte) : Nat := Config.chunk * fragIdx seq leadRef

/-- `end = base + bodyLen` (R105; 90_conflicts.md C5: the fragment's end, no running sum). -/
def fragEnd (seq leadRef : Byte) (body : List Byte) : Nat := fragBase seq leadRef + body.length

/-- `m = min(length, 251)`, the bytes a leading frame writes (R104). -/
def leadSpan (length : Half) : Nat := min length.toNat Config.chunk

end Sys2Proof.Machine
end

