-- ==== Sys2Proof/Machine/Reassembler.lean ====
section
/-! DEFINITION. The reassembler (41_reassembler.md): `RX.FRAME` and the two frame forms. -/

namespace Sys2Proof.Machine

open Sys2Proof

/-- `FRAME.LEAD(F, seq, tag)` of R104, the checks in R104's order, for a given caller. -/
def leadFrame (caller : Caller) (seq : Byte) (tag : Nibble) (length : Half) (body : List Byte) (s : State) : State :=
  if s.params.reasmCap < length.toNat then
    s.reject caller (.reassemblyOverflow length.toNat)
  else if body.length < leadSpan length then
    s.reject caller (.malformedFrame (Config.hdrLen + body.length))
  else
    let t := ((s.storeAt 0 (body.take (leadSpan length))).latchLead length tag).expectAfter seq
    if length.toNat ≤ Config.chunk then t.complete caller
    else (t.enterPhase .accumulating).giveBack caller (.rx .ok false)

/-- `FRAME.CONT(F, seq)` of R105, for a given caller. The kind tag is not used (R111), and nothing ties `leadRef` to the
leading frame received (R112). -/
def contFrame (caller : Caller) (seq leadRef : Byte) (body : List Byte) (s : State) : State :=
  if s.phase = .idle then
    (s.expectAfter seq).giveBack caller (.rx .ok false)
  else if s.params.reasmCap < fragEnd seq leadRef body then
    s.reject caller (.reassemblyOverflow (fragEnd seq leadRef body))
  else
    let t := (s.storeAt (fragBase seq leadRef) body).expectAfter seq
    if fragEnd seq leadRef body = s.declLen.toNat then t.complete caller
    else t.giveBack caller (.rx .ok false)

/-- `RX.FRAME(F)` of R100, for a given caller: the length check (R101), the acceptance rule (R103), then the frame's form. -/
def rxFrame (caller : Caller) (frame : List Byte) (s : State) : State :=
  if frame.length < Config.hdrLen ∨ Config.mtu < frame.length then
    s.reject caller (.malformedFrame frame.length)
  else if ¬(frameSeq frame = s.inSeqNum ∨ frameIsCont frame = false) then
    s.reject caller (.sequenceGap (frameSeq frame))
  else if frameIsCont frame = false then
    leadFrame caller (frameSeq frame) (frameKind frame) (frameLength frame) (frameBody frame) s
  else
    contFrame caller (frameSeq frame) (frameLeadRef frame) (frameBody frame) s

/-- `RX.FRAME` (R100). -/
def execRxFrame (frame : List Byte) (s : State) : Host.Outcome State Fault Refusal :=
  .next (rxFrame .driver frame s)

/-- `FRAME.LEAD` (R104): a leading frame arrives. A leading frame always passes the acceptance rule (R103, R110); a body
no frame can hold is the length error of R101. The reserved bits are ignored (R66). -/
def execFrameLead (seq : Byte) (kindTag : Nibble) (_reserved : BitVec 3) (length : Half) (body : List Byte)
    (s : State) : Host.Outcome State Fault Refusal :=
  if Config.chunk < body.length then .next (s.reject .driver (.malformedFrame (Config.hdrLen + body.length)))
  else .next (leadFrame .driver seq kindTag length body s)

/-- `FRAME.CONT` (R105): a continuation frame arrives. The acceptance rule (R103) stands before R105's pseudocode (DEDUCED,
notes/assumptions/3.md); a body no frame can hold is the length error of R101. Tag, reserved bits and byte 2 are ignored
(R66, R111). -/
def execFrameCont (seq : Byte) (_kindTag : Nibble) (_reserved : BitVec 3) (_unused leadRef : Byte) (body : List Byte)
    (s : State) : Host.Outcome State Fault Refusal :=
  if Config.chunk < body.length then .next (s.reject .driver (.malformedFrame (Config.hdrLen + body.length)))
  else if seq ≠ s.inSeqNum then .next (s.reject .driver (.sequenceGap seq))
  else .next (contFrame .driver seq leadRef body s)

end Sys2Proof.Machine
end

