-- ==== Sys2Proof/Machine/Segmenter.lean ====
section
/-! DEFINITION. The segmenter (40_segmenter.md): `SEG.REPORT` and `SEG.SCHEMA`, and the byte-sink they call (R46, R153). -/

namespace Sys2Proof.Machine

open Sys2Proof

/-- The calls the sink's code makes into this instance during one `Transmit` (R153): each `RX.FRAME` runs, its result going
to the sink's code (R138); no state is answered if one of them is another operation. -/
def runNested : List Request → State → Option State
  | [], s => some s
  | r :: rs, s =>
    match r.inboundFrame with
    | none => none
    | some frame => runNested rs (rxFrame .sink frame s)

/-- What the sink does during the next `Transmit` call: its turn of the script, and beyond the script a bare answer, drawn
freely (R46, D31). -/
def State.nextTurn (s : State) : SinkTurn :=
  match s.sinkTurns with
  | t :: _ => t
  | [] => ⟨[], some (Config.sinkDraw s.sinkCalls)⟩

/-- `Transmit(F)` (R46): the frame goes to the sink, the sink's code may call `RX.FRAME` (R153), then the sink answers. A
sink that never returns leaves the operation stuck (I5). -/
def transmit (frame : List Byte) (s : State) : Host.Outcome (Config.SinkAnswer × State) Fault Refusal :=
  match runNested s.nextTurn.calls (s.takeTurn.emit (.transmit frame)) with
  | none => .refused .overlappingOperation
  | some t =>
    match s.nextTurn.reply with
    | none => .fault .sinkNeverReturns
    | some answer => .next (answer, t)

/-- The loop of R82 from frame k on, `n` frames being left: build, check, number, hand over. The answer to the last frame
is the operation's status, whichever it is. -/
def sendFrames (payload : List Byte) (tag : Nibble) (s0 : Byte) : Nat → Nat → State → Host.Outcome State Fault Refusal
  | 0, _, s => .next (s.endWith .ok)
  | n + 1, k, s =>
    let frame := segFrame payload tag s0 s.outSeqNum k
    if Config.mtu < frame.length then .next (s.endWith (.frameTooLarge frame.length))
    else
      match transmit frame s.countFrame with
      | .fault r => .fault r
      | .refused r => .refused r
      | .next (answer, t) =>
        if n = 0 then .next (t.endWith (answerStatus k answer))
        else
          match answer with
          | .ok => sendFrames payload tag s0 n (k + 1) t
          | .sinkError => .next (t.endWith (.sinkError k))

/-- `SegmentAndSend(P, tag)` (R82). -/
def segmentAndSend (payload : List Byte) (tag : Nibble) (s : State) : Host.Outcome State Fault Refusal :=
  if s.params.segMaxLen < payload.length then .next (s.endWith (.payloadTooLarge payload.length))
  else sendFrames payload tag s.outSeqNum (frameCount payload.length) 0 s

/-- `SEG.REPORT` (R83): `SegmentAndSend(P, KIND_REPORT)`. -/
def execSegReport (payload : List Byte) (s : State) : Host.Outcome State Fault Refusal :=
  segmentAndSend payload s.params.kindReport s

/-- `SEG.SCHEMA` (R84): `SegmentAndSend(P, KIND_SCHEMA)`. -/
def execSegSchema (payload : List Byte) (s : State) : Host.Outcome State Fault Refusal :=
  segmentAndSend payload s.params.kindSchema s

end Sys2Proof.Machine
end

