-- ==== Sys2Proof/Machine/Dispatch.lean ====
section
/-! DEFINITION. One arm for each instruction. -/

namespace Sys2Proof.Machine

open Sys2Proof

def exec (i : Instr) (s : State) : Host.Outcome State Fault Refusal :=
  match i with
  | .segReport payload => Sys2Proof.Machine.execSegReport payload s
  | .segSchema payload => Sys2Proof.Machine.execSegSchema payload s
  | .rxFrame frame => Sys2Proof.Machine.execRxFrame frame s
  | .reset => Sys2Proof.Machine.execReset s
  | .frameLead seq kindTag reserved length body => Sys2Proof.Machine.execFrameLead seq kindTag reserved length body s
  | .frameCont seq kindTag reserved unused leadRef body => Sys2Proof.Machine.execFrameCont seq kindTag reserved unused leadRef body s

end Sys2Proof.Machine
end

