-- ==== Sys2Proof/Machine/Step.lean ====
section
/-! DEFINITION. One step: the next request runs to completion (R12, R45, R50). -/

namespace Sys2Proof.Machine

open Sys2Proof

/-- Take the next request and run what it decodes to. With nothing asked, the block holds its state and does nothing
(R143). -/
def step (s : State) : Host.Outcome State Fault Refusal :=
  match s.fetch with
  | none => .next s
  | some (r, t) =>
    match decode r with
    | .ok i => exec i t
    | .error e => rejectRequest e t

/-- The state in which the very next step runs the instruction of an opcode-table word: its request stands at the head of
the queue. -/
def State.withFetchWord (s : State) (nbits w : Nat) : State :=
  { s with pending := tableRequest nbits w :: s.pending }

end Sys2Proof.Machine
end

