-- ==== Sys2Proof/Safety.lean ====
section
/-! DEFINITION. The terms in which claims are made: the invariant of R30, what the sink does during the coming `Transmit`
calls, what an operation sent out, and the frames of R81 written as R81's table has them. -/

namespace Sys2Proof.Machine

open Sys2Proof

/-- The invariant: the parameters in R7's ranges, `rbuf` in canonical form and inside its capacity (R26), and R30 (a). -/
abbrev State.Inv (s : State) : Prop :=
  s.params.wf = true ∧ s.rbuf.wf ∧ s.rbuf.within s.params.reasmCap ∧
    (s.phase = .accumulating → 251 < s.declLen.toNat ∧ s.declLen.toNat ≤ s.params.reasmCap)

/-! ## The sink -/

/-- The sink's answer to the coming `Transmit` call number `j`, counted from 0; none if that call never returns. -/
def State.answer (s : State) (j : Nat) : Option Config.SinkAnswer :=
  match s.sinkTurns[j]? with
  | some t => t.reply
  | none => some (Config.sinkDraw (s.sinkCalls + j))

/-- The calls the sink's code makes into the instance during the coming `Transmit` call number `j`. -/
def State.callsAt (s : State) (j : Nat) : List Request :=
  match s.sinkTurns[j]? with
  | some t => t.calls
  | none => []

/-- The frames of the `RX.FRAME` calls among the first `n` coming turns of the sink, in order. -/
def State.nestedFrames (s : State) (n : Nat) : List (List Byte) :=
  (List.range n).flatMap fun j => (s.callsAt j).filterMap Request.inboundFrame

/-! ## Outputs -/

/-- What `t` has sent out beyond what `s` had. -/
def newOutputs (s t : State) : List Output := t.outputs.drop s.outputs.length

/-- The frame of a `Transmit` call. -/
def Output.frame? : Output → Option (List Byte)
  | .transmit frame => some frame
  | .dispatch _ _ => none
  | .returned _ _ => none

/-- The frames handed to the sink among some outputs, in order. -/
def framesIn (outs : List Output) : List (List Byte) := outs.filterMap Output.frame?

/-- Whether an output is a `Dispatch` call. -/
def Output.isDispatch : Output → Bool
  | .transmit _ => false
  | .dispatch _ _ => true
  | .returned _ _ => false

/-- Whether an output is a result returned to the sink's code. -/
def Output.isSinkResult : Output → Bool
  | .transmit _ => false
  | .dispatch _ _ => false
  | .returned .driver _ => false
  | .returned .sink _ => true

/-! ## Parts of the state -/

/-- The reassembler's part of the state (R51) is the same, `rbuf` byte for byte. -/
abbrev State.SameReassembler (s t : State) : Prop :=
  t.inSeqNum = s.inSeqNum ∧ t.phase = s.phase ∧ t.declLen = s.declLen ∧ t.rxKind = s.rxKind ∧
    ∀ a, t.rbuf.read a = s.rbuf.read a

/-- What belongs to the surroundings and to the configuration is the same: no operation of the reassembler and no `RESET`
touches it. -/
abbrev State.SameSurroundings (s t : State) : Prop :=
  t.params = s.params ∧ t.pending = s.pending ∧ t.sinkTurns = s.sinkTurns ∧ t.sinkCalls = s.sinkCalls

/-! ## Deliveries -/

/-- `RX.FRAME` for each frame of a list, in order. -/
def receiveAll : List (List Byte) → State → Host.Outcome State Fault Refusal
  | [], s => .next s
  | frame :: rest, s =>
    match exec (.rxFrame frame) s with
    | .next t => receiveAll rest t
    | .fault r => .fault r
    | .refused r => .refused r

/-- The state after `RX.FRAME` for each frame of a list, in order, for a given caller. -/
def receiveFrom (caller : Caller) (frames : List (List Byte)) (s : State) : State :=
  frames.foldl (fun t frame => rxFrame caller frame t) s

/-- What the `RX.FRAME` calls from inside the coming `Transmit` call number `j` send out (R138, R153): the outputs of
receiving that turn's frames in order for the sink's code, in the state that the frames of the turns before it leave. -/
def State.nestedOutputs (s : State) (j : Nat) : List Output :=
  newOutputs (receiveFrom .sink (s.nestedFrames j) s) (receiveFrom .sink (s.nestedFrames (j + 1)) s)

/-! ## R80 and R81 as the spec writes them -/

/-- N(L) = max(1, ⌈L / 251⌉) (R80). -/
def packetFrames (len : Nat) : Nat := max 1 ((len + 250) / 251)

/-- Frame k of a packet, by the table of R81. -/
def packetFrame (payload : List Byte) (tag : Nibble) (s0 : Byte) (k : Nat) : List Byte :=
  [ s0 + BitVec.ofNat 8 k,
    if k = 0 then tag.setWidth 8 else tag.setWidth 8 ||| 0x10,
    if k = 0 then BitVec.ofNat 8 (payload.length % 256) else 0x00,
    if k = 0 then BitVec.ofNat 8 (payload.length / 256) else s0 ]
    ++ (payload.take (min (251 * k + 251) payload.length)).drop (251 * k)

/-- The frames of a packet, in order (R80, R81). -/
def packet (payload : List Byte) (tag : Nibble) (s0 : Byte) : List (List Byte) :=
  (List.range (packetFrames payload.length)).map (packetFrame payload tag s0)

/-- The instruction is `SEG.REPORT` or `SEG.SCHEMA` of a payload, with the kind tag the instance writes for it (R83, R84). -/
abbrev Segments (s : State) (i : Instr) (payload : List Byte) (tag : Nibble) : Prop :=
  (i = .segReport payload ∧ tag = s.params.kindReport) ∨ (i = .segSchema payload ∧ tag = s.params.kindSchema)

end Sys2Proof.Machine
end

