-- ==== Sys2Proof/Certificates/Slice0/Obligations.lean ====
section
/-! DEFINITION. The statements about the machine, for the provers. -/

open Sys2Proof Sys2Proof.Machine

/-! ## Requests, decoding, the step -/

/-- Words written out from 30_encoding.md and the header vectors of 95_test_vectors.md decode to what they stand for. -/
def Obligations.DecodeReadsWrittenWords : Prop :=
  decode ⟨.command, [0x10, 0xAA, 0xBB]⟩ = .ok (.segReport [0xAA, 0xBB]) ∧
  decode ⟨.command, [0x11]⟩ = .ok (.segSchema []) ∧
  decode ⟨.command, [0x20, 0x05, 0x00, 0x03]⟩ = .ok (.rxFrame [0x05, 0x00, 0x03]) ∧
  decode ⟨.command, [0xF0]⟩ = .ok .reset ∧
  decode ⟨.source, [0x10, 0xE1, 0xF6, 0x01, 0x7E]⟩ = .ok (.frameLead 0x10 0x1 0x7 502 [0x7E]) ∧
  decode ⟨.source, [0x00, 0xF0, 0xAB, 0x05]⟩ = .ok (.frameCont 0x00 0x0 0x7 0xAB 0x05 []) ∧
  decode ⟨.command, [0x21]⟩ = .error (.reservedSelector 0x21) ∧
  decode ⟨.source, [0x05, 0x00, 0x03]⟩ = .error (.frameLength 3)

/-- R50: operations take effect in the order they are invoked. A step takes the request at the head of the queue and is the
meaning of the instruction it decodes to, at the state without that request. -/
def Obligations.StepRunsDecodedRequest : Prop :=
  ∀ (s : State) (r : Request) (rest : List Request) (i : Instr),
    s.pending = r :: rest → decode r = .ok i → step s = exec i { s with pending := rest }

/-- R143: between operations the FSR holds its state and does nothing. -/
def Obligations.StepWithNothingPendingHoldsState : Prop :=
  ∀ s : State, s.pending = [] → step s = .next s

/-- R71: a reserved selector, one of 252, changes no state of the FSR, sends no frame, dispatches nothing and returns
`IllegalCommand`, whatever bytes follow it. -/
def Obligations.ReservedSelectorReturnsIllegalCommand : Prop :=
  (∀ (s : State) (op : Byte) (operand : List Byte) (rest : List Request),
    op ≠ 0x10 → op ≠ 0x11 → op ≠ 0x20 → op ≠ 0xF0 → s.pending = ⟨.command, op :: operand⟩ :: rest →
      step s = .next { s with
        pending := rest
        outputs := s.outputs ++ [.returned .driver (.status (.illegalCommand op))] }) ∧
  ((List.range 256).filter fun n => n ≠ 0x10 ∧ n ≠ 0x11 ∧ n ≠ 0x20 ∧ n ≠ 0xF0).length = 252

/-- R47: the driver invokes `RX.FRAME(F)` once for the frame that arrives; a frame outside 4 to 255 bytes is answered
`MalformedFrame` and changes nothing. -/
def Obligations.StepOnSourceFrameIsRxFrame : Prop :=
  ∀ (s : State) (frame : List Byte) (rest : List Request), s.pending = ⟨.source, frame⟩ :: rest →
    step s = exec (.rxFrame frame) { s with pending := rest } ∧
    (frame.length < 4 ∨ 255 < frame.length →
      step s = .next { s with
        pending := rest
        outputs := s.outputs ++ [.returned .driver (.rx (.malformedFrame frame.length) false)] })

/-- The model's own choice (notes/assumptions/10.md): bytes on the command interface that are no command of R70 are
refused by name. -/
def Obligations.StepRefusesBytesThatAreNoCommand : Prop :=
  ∀ (s : State) (rest : List Request),
    (s.pending = ⟨.command, []⟩ :: rest → step s = .refused .noSelector) ∧
    (∀ b bs, s.pending = ⟨.command, 0xF0 :: b :: bs⟩ :: rest → step s = .refused .resetOperand)

/-- A payload over `SEG_MAX_LEN`, one over R70's 65535 bytes included, is answered `PayloadTooLarge` by a step of either
`SEG.*` command and changes nothing, whenever the parameters are in R7's ranges. That a payload over 65535 bytes has this
effect is the model's reading (notes/assumptions/10.md). -/
def Obligations.StepOnOversizedPayloadSendsNothing : Prop :=
  ∀ (s : State) (rest : List Request) (op : Byte) (payload : List Byte), s.params.wf = true → op = 0x10 ∨ op = 0x11 →
    s.params.segMaxLen < payload.length → s.pending = ⟨.command, op :: payload⟩ :: rest →
    step s = .next { s with
      pending := rest
      outputs := s.outputs ++ [.returned .driver (.status (.payloadTooLarge payload.length))] }

/-- No bit of an encoding is dropped: decoding the encoding of a well-formed instruction gives it back, every operand at
every value. -/
def Obligations.DecodeOfEncodeIsIdentity : Prop :=
  ∀ i : Instr, i.wellFormed = true → decode (encode i) = .ok i

/-- Every request has one reading: what decodes to an instruction is that instruction's encoding, and it is well formed. -/
def Obligations.EncodeOfDecodeIsIdentity : Prop :=
  ∀ (r : Request) (i : Instr), decode r = .ok i → encode i = r ∧ i.wellFormed = true

/-- R65: bit 12 of H alone chooses the form, and the decode of an admitted frame is total. -/
def Obligations.HeaderBit12ChoosesTheForm : Prop :=
  ∀ frame : List Byte, 4 ≤ frame.length → frame.length ≤ 255 →
    (headerWord frame &&& 0x00001000 = 0x00000000 ∨ headerWord frame &&& 0x00001000 = 0x00001000) ∧
    (headerWord frame &&& 0x00001000 = 0x00000000 →
      ∃ seq kindTag reserved length body,
        decode ⟨.source, frame⟩ = .ok (.frameLead seq kindTag reserved length body)) ∧
    (headerWord frame &&& 0x00001000 = 0x00001000 →
      ∃ seq kindTag reserved unused leadRef body,
        decode ⟨.source, frame⟩ = .ok (.frameCont seq kindTag reserved unused leadRef body))

/-- R64's table: where the fields of the two forms stand in H, the header read as one little-endian number. -/
def Obligations.HeaderFieldsStandWhereTheTableSays : Prop :=
  ∀ (h0 h1 h2 h3 : Byte) (body : List Byte) (h : Nat), body.length ≤ 251 →
    h = h0.toNat + 256 * h1.toNat + 65536 * h2.toNat + 16777216 * h3.toNat →
    (h / 4096 % 2 = 0 →
      ∃ seq kindTag reserved length,
        decode ⟨.source, h0 :: h1 :: h2 :: h3 :: body⟩ = .ok (.frameLead seq kindTag reserved length body) ∧
        seq.toNat = h % 256 ∧ kindTag.toNat = h / 256 % 16 ∧ reserved.toNat = h / 8192 % 8 ∧
        length.toNat = h / 65536) ∧
    (h / 4096 % 2 = 1 →
      ∃ seq kindTag reserved unused leadRef,
        decode ⟨.source, h0 :: h1 :: h2 :: h3 :: body⟩ = .ok (.frameCont seq kindTag reserved unused leadRef body) ∧
        seq.toNat = h % 256 ∧ kindTag.toNat = h / 256 % 16 ∧ reserved.toNat = h / 8192 % 8 ∧
        unused.toNat = h / 65536 % 256 ∧ leadRef.toNat = h / 16777216)

/-! ## Reset -/

/-- R150: `RESET` writes the five registers and not `rbuf`, sends no frame, dispatches nothing and returns `Ok`; power-on
gives the same register values, and each byte of `rbuf` is then the free value of its offset. -/
def Obligations.ResetEffect : Prop :=
  (∀ s : State, exec .reset s = .next { s with
    outSeqNum := 0x00
    inSeqNum := 0x00
    phase := .idle
    declLen := 0x0000
    rxKind := 0x0
    outputs := s.outputs ++ [.returned .driver (.status .ok)] }) ∧
  (State.reset.outSeqNum = 0x00 ∧ State.reset.inSeqNum = 0x00 ∧ State.reset.phase = .idle ∧
    State.reset.declLen = 0x0000 ∧ State.reset.rxKind = 0x0 ∧
    ∀ a, State.reset.rbuf.byteAt a = Config.rbufPowerOn a)

/-- The invariant of R30 (a), with R7 and R26, holds after power-on. -/
def Obligations.PowerOnStateMeetsInvariant : Prop := State.reset.Inv

/-- R151: after `RESET`, of the continuation frames only one with `seq` 0x00 is accepted, and it is an orphan whose body is
discarded; every other is rejected with `SequenceGap`. -/
def Obligations.AfterResetContinuationsAreOrphansOrGaps : Prop :=
  ∀ (s t : State) (frame : List Byte), exec .reset s = .next t → 4 ≤ frame.length → frame.length ≤ 255 →
    frameIsCont frame = true →
    (frameSeq frame = 0x00 → exec (.rxFrame frame) t = .next { t with
      inSeqNum := 0x01
      outputs := t.outputs ++ [.returned .driver (.rx .ok false)] }) ∧
    (frameSeq frame ≠ 0x00 → exec (.rxFrame frame) t = .next { t with
      outputs := t.outputs ++ [.returned .driver (.rx (.sequenceGap (frameSeq frame)) false)] })

/-! ## The segmenter -/

/-- R80: the two forms of N(L) agree, and the machine's count is N(L). -/
def Obligations.FrameCountIsCeiling : Prop :=
  ∀ len : Nat,
    frameCount len = packetFrames len ∧
    (len < 251 → packetFrames len = 1) ∧
    (251 ≤ len → packetFrames len = len / 251 + (if len % 251 ≠ 0 then 1 else 0))

/-- R82, `SegmentAndSend`, for a sink that makes no call into the instance: a payload over `SEG_MAX_LEN` sends nothing and
changes nothing; with every answer `Ok`, the frames of R81 are handed over in order, `outSeqNum` counts them and `Ok` is
returned; with the first `SinkError` at frame k, frames 0 to k are handed over and counted and `SinkError(k)` is returned.
`rbuf`, every reassembler register and the rest of the state are as before. -/
def Obligations.SegmentAndSendEffect : Prop :=
  ∀ (s : State) (i : Instr) (payload : List Byte) (tag : Nibble), Segments s i payload tag →
    (s.params.segMaxLen < payload.length →
      exec i s = .next { s with
        outputs := s.outputs ++ [.returned .driver (.status (.payloadTooLarge payload.length))] }) ∧
    (payload.length ≤ s.params.segMaxLen →
      ((∀ j < packetFrames payload.length, s.callsAt j = [] ∧ s.answer j = some .ok) →
        exec i s = .next { s with
          outSeqNum := s.outSeqNum + BitVec.ofNat 8 (packetFrames payload.length)
          sinkTurns := s.sinkTurns.drop (packetFrames payload.length)
          sinkCalls := s.sinkCalls + packetFrames payload.length
          outputs := s.outputs ++ (packet payload tag s.outSeqNum).map .transmit
            ++ [.returned .driver (.status .ok)] }) ∧
      (∀ k < packetFrames payload.length, (∀ j ≤ k, s.callsAt j = []) → (∀ j < k, s.answer j = some .ok) →
        s.answer k = some .sinkError →
        exec i s = .next { s with
          outSeqNum := s.outSeqNum + BitVec.ofNat 8 (k + 1)
          sinkTurns := s.sinkTurns.drop (k + 1)
          sinkCalls := s.sinkCalls + (k + 1)
          outputs := s.outputs ++ ((packet payload tag s.outSeqNum).take (k + 1)).map .transmit
            ++ [.returned .driver (.status (.sinkError k))] }))

/-- R87, under any sink, nested calls included: what a finished `SEG.*` has handed over is an initial run of the packet's
frames in increasing k, each after the first only once the one before was answered `Ok`; no frame is sent twice. -/
def Obligations.FramesGoOutInOrderAfterOk : Prop :=
  ∀ (s t : State) (i : Instr) (payload : List Byte) (tag : Nibble), Segments s i payload tag →
    exec i s = .next t →
    ∃ m ≤ packetFrames payload.length,
      framesIn (newOutputs s t) = (packet payload tag s.outSeqNum).take m ∧
      ∀ j, j + 1 < m → s.answer j = some .ok

/-- Completion of `SEG.*` under any sink that answers every call and whose code calls nothing but `RX.FRAME`: the operation
ends, its result is the last output, and `outSeqNum` has counted every frame handed over. -/
def Obligations.SegmenterCompletesWheneverTheSinkAnswers : Prop :=
  ∀ (s : State) (i : Instr) (payload : List Byte) (tag : Nibble), Segments s i payload tag →
    (∀ j < packetFrames payload.length, s.answer j ≠ none ∧ ∀ r ∈ s.callsAt j, r.inboundFrame ≠ none) →
    ∃ t st, exec i s = .next t ∧ t.outputs.getLast? = some (.returned .driver (.status st)) ∧
      t.outSeqNum = s.outSeqNum + BitVec.ofNat 8 (framesIn (newOutputs s t)).length ∧
      (st = .ok ∨ (∃ k, st = .sinkError k ∧ (framesIn (newOutputs s t)).length = k + 1 ∧
        s.answer k = some .sinkError) ∨
        (st = .payloadTooLarge payload.length ∧ s.params.segMaxLen < payload.length ∧
          framesIn (newOutputs s t) = []))

/-- D1 and I5: when the sink never returns from the `Transmit` call for frame k, the operation is stuck there. -/
def Obligations.SilentSinkLeavesSegmenterStuck : Prop :=
  ∀ (s : State) (i : Instr) (payload : List Byte) (tag : Nibble) (k : Nat), Segments s i payload tag →
    payload.length ≤ s.params.segMaxLen → k < packetFrames payload.length →
    (∀ j ≤ k, ∀ r ∈ s.callsAt j, r.inboundFrame ≠ none) → (∀ j < k, s.answer j = some .ok) → s.answer k = none →
    exec i s = .fault .sinkNeverReturns

/-- R153: of the calls made from inside `Transmit`, `RX.FRAME` is admitted and behaves as if it ran between the two
`Transmit` calls around it, so that the reassembler ends as if it had received exactly those frames; a `RESET` or `SEG.*`
from there is refused. -/
def Obligations.CallsFromInsideTransmit : Prop :=
  (∀ (r : Request) (i : Instr), decode r = .ok i →
    (r.inboundFrame = none ↔ i = .reset ∨ ∃ payload, i = .segReport payload ∨ i = .segSchema payload)) ∧
  (∀ (s : State) (i : Instr) (payload : List Byte) (tag : Nibble) (k : Nat), Segments s i payload tag →
    payload.length ≤ s.params.segMaxLen → k < packetFrames payload.length →
    (∀ j < k, s.answer j = some .ok ∧ ∀ r ∈ s.callsAt j, r.inboundFrame ≠ none) →
    (∃ r ∈ s.callsAt k, r.inboundFrame = none) →
    exec i s = .refused .overlappingOperation) ∧
  (∀ (s t : State) (i : Instr) (payload : List Byte) (tag : Nibble), Segments s i payload tag → exec i s = .next t →
    ∃ u, receiveAll (s.nestedFrames (framesIn (newOutputs s t)).length) s = .next u ∧ u.SameReassembler t)

/-- R138 and R153, what a finished `SEG.*` operation sends out, in order: each frame handed over, followed by the outputs of
the `RX.FRAME` calls made from inside its `Transmit` call, each `Dispatch` and each result with the sink's code as caller;
and last, once, the status to its own caller. Each nested `RX.FRAME` returns one result, to the sink's code, and none goes
to the driver. -/
def Obligations.NestedResultsGoToTheSink : Prop :=
  (∀ (s t : State) (i : Instr) (payload : List Byte) (tag : Nibble), Segments s i payload tag → exec i s = .next t →
    ∃ st, newOutputs s t =
      ((List.range (framesIn (newOutputs s t)).length).flatMap fun j =>
        .transmit (packetFrame payload tag s.outSeqNum j) :: s.nestedOutputs j) ++ [.returned .driver (.status st)]) ∧
  (∀ (s : State) (j : Nat),
    (∀ r, Output.returned .driver r ∉ s.nestedOutputs j) ∧
    framesIn (s.nestedOutputs j) = [] ∧
    ((s.nestedOutputs j).filter Output.isSinkResult).length = ((s.callsAt j).filterMap Request.inboundFrame).length)

/-- The frame of `SEG.REPORT` and `SEG.SCHEMA` for a sink that makes no call into the instance: no reassembler register, no
byte of `rbuf`, no parameter and no pending request changes, and nothing is dispatched. -/
def Obligations.SegmenterLeavesReassemblerAlone : Prop :=
  ∀ (s t : State) (i : Instr) (payload : List Byte) (tag : Nibble), Segments s i payload tag →
    (∀ j < packetFrames payload.length, s.callsAt j = []) → exec i s = .next t →
    s.SameReassembler t ∧ t.rbuf = s.rbuf ∧ t.params = s.params ∧ t.pending = s.pending ∧
      ∀ o ∈ newOutputs s t, o.isDispatch = false

/-- Every frame handed to the sink has 4 to 255 bytes (R46), a `SEG.*` operation hands over at most 256 (R161), and
`FrameTooLarge` is never returned (R82), under any sink. -/
def Obligations.FramesAreBoundedAndNeverTooLarge : Prop :=
  ∀ (s t : State) (i : Instr) (payload : List Byte) (tag : Nibble), s.params.wf = true → Segments s i payload tag →
    exec i s = .next t →
    (∀ frame ∈ framesIn (newOutputs s t), 4 ≤ frame.length ∧ frame.length ≤ 255) ∧
    (framesIn (newOutputs s t)).length ≤ 256 ∧
    ∀ n, Output.returned .driver (.status (.frameTooLarge n)) ∉ newOutputs s t

/-- R86: the frames a finished `SEG.*` operation has handed over have pairwise distinct sequence numbers, and the fragment
index of frame k, formed from its own bytes when it is a continuation frame, is k; across the wrap of the counter too. The
same holds of the whole packet of R81's table. -/
def Obligations.PacketSequenceNumbersAreDistinct : Prop :=
  (∀ (s t : State) (i : Instr) (payload : List Byte) (tag : Nibble), Segments s i payload tag →
    payload.length ≤ 64256 → exec i s = .next t →
    ∀ (k : Nat) (frame : List Byte), (framesIn (newOutputs s t))[k]? = some frame →
      (∀ j < k, ∀ earlier, (framesIn (newOutputs s t))[j]? = some earlier → frameSeq earlier ≠ frameSeq frame) ∧
      (k ≠ 0 → frameIsCont frame = true ∧ fragIdx (frameSeq frame) (frameLeadRef frame) = k)) ∧
  (∀ (payload : List Byte) (tag : Nibble) (s0 : Byte), payload.length ≤ 64256 →
    ∀ k < packetFrames payload.length,
      (∀ j < k, frameSeq (packetFrame payload tag s0 j) ≠ frameSeq (packetFrame payload tag s0 k)) ∧
      (k ≠ 0 → fragIdx (frameSeq (packetFrame payload tag s0 k)) (frameLeadRef (packetFrame payload tag s0 k)) = k))

/-- R42: byte i of a logical packet travels as body byte `i mod 251` of frame `i div 251` of those a finished `SEG.*`
operation has handed over, and the frames carry nothing else: m frames carry the first `251 m` bytes, joined in order, and
with the status `Ok` that is the whole payload. The same holds of the whole packet of R81's table. -/
def Obligations.PacketCarriesPayloadInOrder : Prop :=
  (∀ (s t : State) (i : Instr) (payload : List Byte) (tag : Nibble), Segments s i payload tag → exec i s = .next t →
    (∀ n < payload.length, ∀ frame, (framesIn (newOutputs s t))[n / 251]? = some frame →
      (frameBody frame)[n % 251]? = payload[n]?) ∧
    ((framesIn (newOutputs s t)).map frameBody).flatten = payload.take (251 * (framesIn (newOutputs s t)).length) ∧
    (t.outputs.getLast? = some (.returned .driver (.status .ok)) →
      ((framesIn (newOutputs s t)).map frameBody).flatten = payload)) ∧
  (∀ (payload : List Byte) (tag : Nibble) (s0 : Byte),
    (∀ i < payload.length, ∃ frame, (packet payload tag s0)[i / 251]? = some frame ∧
      (frameBody frame)[i % 251]? = payload[i]?) ∧
    ((packet payload tag s0).map frameBody).flatten = payload)

/-- R41: the declared length is little-endian on the wire, in every leading frame the segmenter hands over and as the
reassembler decodes it. -/
def Obligations.DeclaredLengthIsLittleEndian : Prop :=
  (∀ (s t : State) (i : Instr) (payload : List Byte) (tag : Nibble), Segments s i payload tag →
    payload.length ≤ 65535 → exec i s = .next t →
    ∀ frame ∈ framesIn (newOutputs s t), frameIsCont frame = false →
      (frameByte frame 2).toNat = payload.length % 256 ∧ (frameByte frame 3).toNat = payload.length / 256) ∧
  (∀ frame : List Byte, (frameLength frame).toNat = (frameByte frame 2).toNat + 256 * (frameByte frame 3).toNat)

/-- R66: the segmenter writes 0 to the reserved bits of every frame and to byte 2 of a continuation frame; the reassembler
accepts any value there, without effect. -/
def Obligations.ReservedBitsAreZeroOutAndIgnoredIn : Prop :=
  (∀ (s t : State) (i : Instr) (payload : List Byte) (tag : Nibble), Segments s i payload tag → exec i s = .next t →
    ∀ frame ∈ framesIn (newOutputs s t),
      frameReserved frame = 0 ∧ (frameIsCont frame = true → frameUnused frame = 0x00)) ∧
  (∀ (s : State) (seq : Byte) (kindTag : Nibble) (length : Half) (body : List Byte) (r r' : BitVec 3),
    exec (.rxFrame (leadBytes seq kindTag r length body)) s = exec (.rxFrame (leadBytes seq kindTag r' length body)) s ∧
    exec (.frameLead seq kindTag r length body) s = exec (.frameLead seq kindTag r' length body) s) ∧
  (∀ (s : State) (seq leadRef : Byte) (kindTag : Nibble) (body : List Byte) (r r' : BitVec 3) (u u' : Byte),
    exec (.rxFrame (contBytes seq kindTag r u leadRef body)) s =
      exec (.rxFrame (contBytes seq kindTag r' u' leadRef body)) s ∧
    exec (.frameCont seq kindTag r u leadRef body) s = exec (.frameCont seq kindTag r' u' leadRef body) s)

/-! ## The reassembler -/

/-- R101: a frame outside 4 to 255 bytes is rejected with `MalformedFrame(len(F))` and nothing changes. -/
def Obligations.FrameLengthOutsideRangeIsMalformed : Prop :=
  ∀ (s : State) (frame : List Byte), frame.length < 4 ∨ 255 < frame.length →
    exec (.rxFrame frame) s = .next { s with
      outputs := s.outputs ++ [.returned .driver (.rx (.malformedFrame frame.length) false)] }

/-- R103: an admitted frame passes if `seq == inSeqNum` or it is a leading frame; one that fails is rejected with
`SequenceGap(seq)` and changes nothing; one that passes never gets that status. `phase` plays no part. -/
def Obligations.AcceptanceRule : Prop :=
  ∀ (s : State) (frame : List Byte), 4 ≤ frame.length → frame.length ≤ 255 →
    (¬(frameSeq frame = s.inSeqNum ∨ frameIsCont frame = false) →
      exec (.rxFrame frame) s = .next { s with
        outputs := s.outputs ++ [.returned .driver (.rx (.sequenceGap (frameSeq frame)) false)] }) ∧
    (frameSeq frame = s.inSeqNum ∨ frameIsCont frame = false →
      ∃ t st completed, exec (.rxFrame frame) s = .next t ∧
        t.outputs.getLast? = some (.returned .driver (.rx st completed)) ∧ ∀ q, st ≠ .sequenceGap q)

/-- R100, with the model's reading of log entry 3 (notes/assumptions/3.md): an admitted frame runs as the form its header
decodes to. For a continuation frame with `seq` other than `inSeqNum` the two agree only because the frame form as an
instruction includes the acceptance rule of R103; R105 itself speaks only of frames that have passed it. -/
def Obligations.RxFrameRunsTheDecodedForm : Prop :=
  ∀ (s : State) (frame : List Byte) (i : Instr), decode ⟨.source, frame⟩ = .ok i →
    exec (.rxFrame frame) s = exec i s

/-- R104, `FRAME.LEAD`: the two rejections in their order, the completion, and the start of an accumulation; which bytes of
`rbuf` are written, and that every other byte, register and input is as before. `phase` and `inSeqNum` before it play no
part. -/
def Obligations.LeadingFrameEffect : Prop :=
  ∀ (s : State) (seq : Byte) (kindTag : Nibble) (reserved : BitVec 3) (length : Half) (body : List Byte),
    body.length ≤ 251 →
    (s.params.reasmCap < length.toNat →
      exec (.frameLead seq kindTag reserved length body) s = .next { s with
        outputs := s.outputs ++ [.returned .driver (.rx (.reassemblyOverflow length.toNat) false)] }) ∧
    (length.toNat ≤ s.params.reasmCap → body.length < min length.toNat 251 →
      exec (.frameLead seq kindTag reserved length body) s = .next { s with
        outputs := s.outputs ++ [.returned .driver (.rx (.malformedFrame (4 + body.length)) false)] }) ∧
    (length.toNat ≤ s.params.reasmCap → min length.toNat 251 ≤ body.length →
      ∃ t, exec (.frameLead seq kindTag reserved length body) s = .next t ∧
        t.declLen = length ∧ t.rxKind = kindTag ∧ t.inSeqNum = seq + 1 ∧
        (∀ a < min length.toNat 251, t.rbuf.read a = body[a]?) ∧
        (∀ a ≥ min length.toNat 251, t.rbuf.read a = s.rbuf.read a) ∧
        t.outSeqNum = s.outSeqNum ∧ s.SameSurroundings t ∧
        (length.toNat ≤ 251 → t.phase = .idle ∧ t.outputs = s.outputs ++
          [.dispatch kindTag (body.take length.toNat), .returned .driver (.rx .ok true)]) ∧
        (251 < length.toNat → t.phase = .accumulating ∧
          t.outputs = s.outputs ++ [.returned .driver (.rx .ok false)]))

/-- `FRAME.CONT`: the gap of R103, then R105: the orphan, the overflow, and the write at `251 × fragIdx`, with completion
exactly when the fragment ends at `declLen`. What is dispatched is what `rbuf` then holds, byte for byte. That the frame
form as an instruction includes the acceptance rule of R103 is the model's reading (notes/assumptions/3.md). -/
def Obligations.ContinuationFrameEffect : Prop :=
  ∀ (s : State) (seq : Byte) (kindTag : Nibble) (reserved : BitVec 3) (unused leadRef : Byte) (body : List Byte)
    (base : Nat), body.length ≤ 251 → base = 251 * ((256 + seq.toNat - leadRef.toNat) % 256) →
    (seq ≠ s.inSeqNum →
      exec (.frameCont seq kindTag reserved unused leadRef body) s = .next { s with
        outputs := s.outputs ++ [.returned .driver (.rx (.sequenceGap seq) false)] }) ∧
    (seq = s.inSeqNum → s.phase = .idle →
      exec (.frameCont seq kindTag reserved unused leadRef body) s = .next { s with
        inSeqNum := seq + 1
        outputs := s.outputs ++ [.returned .driver (.rx .ok false)] }) ∧
    (seq = s.inSeqNum → s.phase = .accumulating → s.params.reasmCap < base + body.length →
      exec (.frameCont seq kindTag reserved unused leadRef body) s = .next { s with
        outputs := s.outputs ++ [.returned .driver (.rx (.reassemblyOverflow (base + body.length)) false)] }) ∧
    (seq = s.inSeqNum → s.phase = .accumulating → base + body.length ≤ s.params.reasmCap →
      ∃ t, exec (.frameCont seq kindTag reserved unused leadRef body) s = .next t ∧
        t.inSeqNum = seq + 1 ∧ t.declLen = s.declLen ∧ t.rxKind = s.rxKind ∧
        (∀ n < body.length, t.rbuf.read (base + n) = body[n]?) ∧
        (∀ a, a < base ∨ base + body.length ≤ a → t.rbuf.read a = s.rbuf.read a) ∧
        t.outSeqNum = s.outSeqNum ∧ s.SameSurroundings t ∧
        (base + body.length = s.declLen.toNat → t.phase = .idle ∧
          ∃ payload, payload.length = s.declLen.toNat ∧ (∀ a < payload.length, payload[a]? = some (t.rbuf.byteAt a)) ∧
            t.outputs = s.outputs ++ [.dispatch s.rxKind payload, .returned .driver (.rx .ok true)]) ∧
        (base + body.length ≠ s.declLen.toNat → t.phase = .accumulating ∧
          t.outputs = s.outputs ++ [.returned .driver (.rx .ok false)]))

/-- R106, with the completion of `RX.FRAME`: every accepted frame, that is a leading frame within the capacity with enough
body, or a continuation frame in sequence that finds the reassembler idle or ends within the capacity, returns `Ok` and sets
`inSeqNum` to `seq + 1`; every other frame returns another status and leaves `inSeqNum`. -/
def Obligations.AcceptedFrameSetsInSeqNum : Prop :=
  ∀ (s : State) (frame : List Byte),
    (4 ≤ frame.length ∧ frame.length ≤ 255 ∧
      ((frameIsCont frame = false ∧ (frameLength frame).toNat ≤ s.params.reasmCap ∧
          min (frameLength frame).toNat 251 ≤ frame.length - 4) ∨
        (frameIsCont frame = true ∧ frameSeq frame = s.inSeqNum ∧
          (s.phase = .idle ∨ 251 * fragIdx (frameSeq frame) (frameLeadRef frame) + (frame.length - 4)
            ≤ s.params.reasmCap))) →
      ∃ t completed, exec (.rxFrame frame) s = .next t ∧ t.inSeqNum = frameSeq frame + 1 ∧
        t.outputs.getLast? = some (.returned .driver (.rx .ok completed))) ∧
    (¬(4 ≤ frame.length ∧ frame.length ≤ 255 ∧
      ((frameIsCont frame = false ∧ (frameLength frame).toNat ≤ s.params.reasmCap ∧
          min (frameLength frame).toNat 251 ≤ frame.length - 4) ∨
        (frameIsCont frame = true ∧ frameSeq frame = s.inSeqNum ∧
          (s.phase = .idle ∨ 251 * fragIdx (frameSeq frame) (frameLeadRef frame) + (frame.length - 4)
            ≤ s.params.reasmCap)))) →
      ∃ t st, exec (.rxFrame frame) s = .next t ∧ t.inSeqNum = s.inSeqNum ∧ st ≠ .ok ∧
        t.outputs.getLast? = some (.returned .driver (.rx st false)))

/-- R107: a packet completes in exactly two cases; then, and only then, `Dispatch` is called, once, with `rxKind` and the
first `declLen` bytes of `rbuf`, before the result, and `phase` is Idle. -/
def Obligations.CompletionDispatchesOnce : Prop :=
  ∀ (s t : State) (frame : List Byte), exec (.rxFrame frame) s = .next t →
    ∃ st completed,
      newOutputs s t = (if completed then [.dispatch t.rxKind (t.rbuf.readRange 0 t.declLen.toNat)] else [])
        ++ [.returned .driver (.rx st completed)] ∧
      (completed = true → t.phase = .idle) ∧
      (completed = true ↔ st = .ok ∧
        ((frameIsCont frame = false ∧ (frameLength frame).toNat ≤ 251) ∨
          (frameIsCont frame = true ∧ s.phase = .accumulating ∧
            251 * fragIdx (frameSeq frame) (frameLeadRef frame) + (frame.length - 4) = s.declLen.toNat)))

/-- R132, the reassembler's part: a status other than `Ok` leaves every register and every byte as it was and calls no
`Dispatch`; the only trace of the operation is its result. That the frame forms as instructions are rejected so, by R103
and R101 too, is the model's reading (notes/assumptions/3.md, 14.md). -/
def Obligations.RejectedFrameChangesNothing : Prop :=
  ∀ (s t : State) (frame : List Byte) (i : Instr), i = .rxFrame frame ∨ encode i = ⟨.source, frame⟩ →
    exec i s = .next t →
    ∃ st completed, t.outputs.getLast? = some (.returned .driver (.rx st completed)) ∧
      (st ≠ .ok → t = { s with outputs := s.outputs ++ [.returned .driver (.rx st false)] })

/-- The frame of `RX.FRAME`: the segmenter's register, the parameters and the inputs are as before; a continuation frame
leaves `declLen` and `rxKind`; outside `rbuf[0..m)` for a leading frame and `rbuf[base..end)` for a continuation frame every
byte reads as before; nothing already sent is taken back and no frame is sent. -/
def Obligations.RxFrameLeavesTheRestAlone : Prop :=
  ∀ (s t : State) (frame : List Byte), exec (.rxFrame frame) s = .next t →
    t.outSeqNum = s.outSeqNum ∧ s.SameSurroundings t ∧
    (frameIsCont frame = true → t.declLen = s.declLen ∧ t.rxKind = s.rxKind) ∧
    (frameIsCont frame = false → ∀ a ≥ leadSpan (frameLength frame), t.rbuf.read a = s.rbuf.read a) ∧
    (frameIsCont frame = true → ∀ a,
      a < fragBase (frameSeq frame) (frameLeadRef frame) ∨
        fragEnd (frameSeq frame) (frameLeadRef frame) (frameBody frame) ≤ a → t.rbuf.read a = s.rbuf.read a) ∧
    ∃ new, t.outputs = s.outputs ++ new ∧ framesIn new = []

/-- R111: the kind tag of a continuation frame is not used: it changes neither what happens, nor `rxKind`, nor the tag
dispatched. The segmenter writes the same tag in every frame of a packet. -/
def Obligations.ContinuationKindTagIsIgnored : Prop :=
  (∀ (s t : State) (seq leadRef unused : Byte) (kindTag kindTag' : Nibble) (reserved : BitVec 3) (body : List Byte),
    exec (.rxFrame (contBytes seq kindTag reserved unused leadRef body)) s =
      exec (.rxFrame (contBytes seq kindTag' reserved unused leadRef body)) s ∧
    exec (.frameCont seq kindTag reserved unused leadRef body) s =
      exec (.frameCont seq kindTag' reserved unused leadRef body) s ∧
    (exec (.rxFrame (contBytes seq kindTag reserved unused leadRef body)) s = .next t →
      t.rxKind = s.rxKind ∧ ∀ tag payload, Output.dispatch tag payload ∈ newOutputs s t → tag = s.rxKind)) ∧
  (∀ (s t : State) (i : Instr) (payload : List Byte) (tag : Nibble), Segments s i payload tag → exec i s = .next t →
    ∀ frame ∈ framesIn (newOutputs s t), frameKind frame = tag)

/-- R134: `ReassemblyOverflow` writes nothing; no operation changes the capacity or a byte at or past `REASM_CAP`; and no
write is truncated: a continuation frame accepted into a packet is written whole, and of an accepted leading frame every
byte of `rbuf[0..min(length, 251))` is the body's byte, which the body has. -/
def Obligations.OverflowFailsClosed : Prop :=
  (∀ (s t : State) (frame : List Byte) (n : Nat), exec (.rxFrame frame) s = .next t →
    Output.returned .driver (.rx (.reassemblyOverflow n) false) ∈ newOutputs s t →
    t.rbuf = s.rbuf ∧ s.params.reasmCap < n) ∧
  (∀ (s t : State) (i : Instr), exec i s = .next t →
    t.params.reasmCap = s.params.reasmCap ∧ ∀ a ≥ s.params.reasmCap, t.rbuf.read a = s.rbuf.read a) ∧
  (∀ (s t : State) (frame : List Byte), exec (.rxFrame frame) s = .next t → frameIsCont frame = true →
    s.phase = .accumulating → (∃ c, t.outputs.getLast? = some (.returned .driver (.rx .ok c))) →
    ∀ n < (frameBody frame).length,
      t.rbuf.read (fragBase (frameSeq frame) (frameLeadRef frame) + n) = (frameBody frame)[n]?) ∧
  (∀ (s t : State) (frame : List Byte), exec (.rxFrame frame) s = .next t → frameIsCont frame = false →
    (∃ c, t.outputs.getLast? = some (.returned .driver (.rx .ok c))) →
    leadSpan (frameLength frame) ≤ (frameBody frame).length ∧
    ∀ n < leadSpan (frameLength frame), t.rbuf.read n = (frameBody frame)[n]?)

/-! ## The whole machine -/

/-- R30 (a), with R7 and R26: every step keeps the invariant, from every state that meets it. -/
def Obligations.StepKeepsInvariant : Prop :=
  ∀ s t : State, s.Inv → step s = .next t → t.Inv

/-- R152 (1): the parameters do not change while the instance lives. -/
def Obligations.ParametersNeverChange : Prop :=
  ∀ s t : State, step s = .next t → t.params = s.params

/-- What has been sent out cannot be recalled: a step only adds outputs. -/
def Obligations.OutputsAreNeverRecalled : Prop :=
  ∀ s t : State, step s = .next t → s.outputs <+: t.outputs

/-- R21: `outSeqNum` is what the next frame built has in byte 0; only `SEG.*` and `RESET` write it, `SEG.*` by one for each
frame handed to the sink; and no operation but the segmenter reads it: an operation of the reassembler and `RESET` do the
same whatever it holds. -/
def Obligations.OutSeqNumBelongsToTheSegmenter : Prop :=
  (∀ (s t : State) (i : Instr), exec i s = .next t →
    t.outSeqNum = match i with
      | .segReport _ => s.outSeqNum + BitVec.ofNat 8 (framesIn (newOutputs s t)).length
      | .segSchema _ => s.outSeqNum + BitVec.ofNat 8 (framesIn (newOutputs s t)).length
      | .rxFrame _ => s.outSeqNum
      | .reset => 0x00
      | .frameLead _ _ _ _ _ => s.outSeqNum
      | .frameCont _ _ _ _ _ _ => s.outSeqNum) ∧
  (∀ (s t : State) (i : Instr) (x : Byte), (∀ payload, i ≠ .segReport payload ∧ i ≠ .segSchema payload) →
    exec i s = .next t →
    ∃ y, exec i { s with outSeqNum := x } = .next { t with outSeqNum := y }) ∧
  (∀ (s t : State) (i : Instr) (payload : List Byte) (tag : Nibble), Segments s i payload tag → exec i s = .next t →
    ∀ j frame, (framesIn (newOutputs s t))[j]? = some frame → frameSeq frame = s.outSeqNum + BitVec.ofNat 8 j)

/-- The writers of the reassembler's registers in R31's table, for a sink that makes no call into the instance: `declLen`
and `rxKind` change only by an accepted leading frame or `RESET`, `inSeqNum` and `phase` only by an accepted frame or
`RESET`, `rbuf` only by an accepted frame. -/
def Obligations.ReassemblerRegistersHaveOnlyTheirWriters : Prop :=
  ∀ (s t : State) (i : Instr), (∀ j, s.callsAt j = []) → exec i s = .next t →
    (t.declLen ≠ s.declLen ∨ t.rxKind ≠ s.rxKind →
      i = .reset ∨ ∃ frame c, (i = .rxFrame frame ∨ encode i = ⟨.source, frame⟩) ∧ frameIsCont frame = false ∧
        t.outputs.getLast? = some (.returned .driver (.rx .ok c))) ∧
    (t.inSeqNum ≠ s.inSeqNum ∨ t.phase ≠ s.phase →
      i = .reset ∨ ∃ frame c, (i = .rxFrame frame ∨ encode i = ⟨.source, frame⟩) ∧
        t.outputs.getLast? = some (.returned .driver (.rx .ok c))) ∧
    (t.rbuf ≠ s.rbuf →
      ∃ frame c, (i = .rxFrame frame ∨ encode i = ⟨.source, frame⟩) ∧
        t.outputs.getLast? = some (.returned .driver (.rx .ok c)))

/-- R109: nothing but a frame that completes a packet or `RESET` takes the reassembler from Accumulating to Idle (for a sink
that makes no call into the instance). -/
def Obligations.AccumulatingEndsOnlyByCompletionOrReset : Prop :=
  ∀ (s t : State) (i : Instr), (∀ j, s.callsAt j = []) → s.phase = .accumulating → exec i s = .next t →
    t.phase = .idle →
    i = .reset ∨ ∃ frame, (i = .rxFrame frame ∨ encode i = ⟨.source, frame⟩) ∧
      newOutputs s t = [.dispatch t.rxKind (t.rbuf.readRange 0 t.declLen.toNat), .returned .driver (.rx .ok true)]

/-- R51: the two halves share no state, so a `SEG.*` whose sink makes no call into the instance and an `RX.FRAME` commute:
in either order every register and `rbuf` end the same, and each operation sends out the same. -/
def Obligations.SegmenterAndReassemblerCommute : Prop :=
  ∀ (s s1 s2 : State) (i : Instr) (payload frame : List Byte) (tag : Nibble), Segments s i payload tag →
    (∀ j < packetFrames payload.length, s.callsAt j = []) →
    exec i s = .next s1 → exec (.rxFrame frame) s1 = .next s2 →
    ∃ t1 t2, exec (.rxFrame frame) s = .next t1 ∧ exec i t1 = .next t2 ∧
      t2 = { s2 with outputs := t2.outputs } ∧
      newOutputs s t1 = newOutputs s1 s2 ∧ newOutputs t1 t2 = newOutputs s s1

/-! ## Two instances -/

/-- R113, the round trip: what instance A sends for a payload that fits both instances, delivered to instance B in order, is
accepted frame by frame and gives exactly one `Dispatch`, of the tag and the payload, at the last frame, from every state of
B. -/
def Obligations.RoundTrip : Prop :=
  ∀ (a a' b : State) (i : Instr) (payload : List Byte) (tag : Nibble),
    Segments a i payload tag → a.params.wf = true → b.params.wf = true →
    payload.length ≤ a.params.segMaxLen → payload.length ≤ b.params.reasmCap →
    (∀ j < packetFrames payload.length, a.callsAt j = [] ∧ a.answer j = some .ok) →
    exec i a = .next a' →
    ∃ b', receiveAll (framesIn (newOutputs a a')) b = .next b' ∧
      b'.outputs = b.outputs ++ List.replicate (packetFrames payload.length - 1) (.returned .driver (.rx .ok false))
        ++ [.dispatch tag payload, .returned .driver (.rx .ok true)] ∧
      b'.phase = .idle ∧ b'.inSeqNum = a.outSeqNum + BitVec.ofNat 8 (packetFrames payload.length) ∧
      b'.declLen.toNat = payload.length ∧ b'.rxKind = tag ∧ b'.outSeqNum = b.outSeqNum

/-- R114, loss: of a packet whose first k frames (k ≥ 1) were delivered and whose frame k was lost, every later frame is
rejected with `SequenceGap`, the packet is never dispatched and the reassembler stays Accumulating with the state it had
after frame k - 1. If frame 0 is lost and B expects S0, every other frame of the packet is rejected and B is unchanged. -/
def Obligations.LossIsRejectedNotSpliced : Prop :=
  ∀ (b : State) (payload : List Byte) (tag : Nibble) (s0 : Byte) (k : Nat),
    b.params.wf = true → payload.length ≤ b.params.reasmCap → k < packetFrames payload.length →
    (1 ≤ k →
      ∃ b1 b2, receiveAll ((packet payload tag s0).take k) b = .next b1 ∧
        b1.phase = .accumulating ∧ b1.inSeqNum = s0 + BitVec.ofNat 8 k ∧
        b1.outputs = b.outputs ++ List.replicate k (.returned .driver (.rx .ok false)) ∧
        receiveAll ((packet payload tag s0).drop (k + 1)) b1 = .next b2 ∧
        b2 = { b1 with
          outputs := b1.outputs ++ ((packet payload tag s0).drop (k + 1)).map
            (fun frame => Output.returned .driver (.rx (.sequenceGap (frameSeq frame)) false)) }) ∧
    (k = 0 → b.inSeqNum = s0 →
      receiveAll ((packet payload tag s0).drop 1) b = .next { b with
        outputs := b.outputs ++ ((packet payload tag s0).drop 1).map
          (fun frame => Output.returned .driver (.rx (.sequenceGap (frameSeq frame)) false)) })

/-! ## Codes -/

/-- The numeric codes of R130 and the encoding of `phase` in R23. -/
def Obligations.StatusAndPhaseCodes : Prop :=
  (∀ (seq op : Byte) (n : Nat),
    Status.ok.code = 0 ∧ (Status.sequenceGap seq).code = 1 ∧ (Status.reassemblyOverflow n).code = 2 ∧
    (Status.sinkError n).code = 3 ∧ (Status.frameTooLarge n).code = 4 ∧ (Status.payloadTooLarge n).code = 5 ∧
    (Status.malformedFrame n).code = 6 ∧ (Status.illegalCommand op).code = 7) ∧
  Phase.idle.code = 0 ∧ Phase.accumulating.code = 1
end

