-- ==== Sys2Proof/Laws/Decode.lean ====
section
/-! SUPPORT. The fields of an encoded frame are the fields it was built from, and a frame is the encoding of its fields. -/

namespace Sys2Proof

section
variable (seq : Byte) (kindTag : Nibble) (reserved : BitVec 3) (length : Half) (unused leadRef : Byte)
  (body : List Byte)

/-! ## Header byte 1 -/

theorem flagByte_cont (flag : BitVec 1) :
    (reserved ++ (flag ++ kindTag) : BitVec 8).getLsbD 4 = flag.getLsbD 0 := by
  revert reserved flag kindTag
  decide

theorem flagByte_kind (flag : BitVec 1) :
    (reserved ++ (flag ++ kindTag) : BitVec 8).extractLsb' 0 4 = kindTag := by
  revert reserved flag kindTag
  decide

theorem flagByte_reserved (flag : BitVec 1) :
    (reserved ++ (flag ++ kindTag) : BitVec 8).extractLsb' 5 3 = reserved := by
  revert reserved flag kindTag
  decide

/-- A header byte 1 is its reserved bits, its flag and its tag. -/
theorem flagByte_eta (b : Byte) :
    (b.extractLsb' 5 3 ++ (BitVec.ofBool (b.getLsbD 4) ++ b.extractLsb' 0 4) : BitVec 8) = b := by
  revert b
  decide

/-! ## Two bytes as one number -/

theorem toNat_half (hi lo : Byte) : (hi ++ lo : BitVec 16).toNat = lo.toNat + 256 * hi.toNat := by
  have h : (hi ++ lo : BitVec 16).toNat = hi.toNat <<< 8 ||| lo.toNat := BitVec.toNat_append hi lo
  rw [h, ← Nat.shiftLeft_add_eq_or_of_lt lo.isLt, Nat.shiftLeft_eq]
  omega

theorem half_eta : (length.extractLsb' 8 8 ++ length.extractLsb' 0 8 : BitVec 16) = length := by
  apply BitVec.eq_of_toNat_eq
  have := length.isLt
  simp only [toNat_half, BitVec.extractLsb'_toNat, Nat.shiftRight_eq_div_pow]
  omega

theorem half_low (hi lo : Byte) : (hi ++ lo : BitVec 16).extractLsb' 0 8 = lo :=
  BitVec.extractLsb'_append_eq_right

theorem half_high (hi lo : Byte) : (hi ++ lo : BitVec 16).extractLsb' 8 8 = hi :=
  BitVec.extractLsb'_append_eq_left

/-! ## A leading frame -/

@[simp] theorem leadBytes_seq : frameSeq (leadBytes seq kindTag reserved length body) = seq := rfl
@[simp] theorem leadBytes_kind : frameKind (leadBytes seq kindTag reserved length body) = kindTag :=
  flagByte_kind kindTag reserved 0#1
@[simp] theorem leadBytes_cont : frameIsCont (leadBytes seq kindTag reserved length body) = false := by
  exact (flagByte_cont kindTag reserved 0#1).trans rfl
@[simp] theorem leadBytes_reserved : frameReserved (leadBytes seq kindTag reserved length body) = reserved :=
  flagByte_reserved kindTag reserved 0#1
@[simp] theorem leadBytes_length : frameLength (leadBytes seq kindTag reserved length body) = length :=
  half_eta length
@[simp] theorem leadBytes_body : frameBody (leadBytes seq kindTag reserved length body) = body := rfl
@[simp] theorem length_leadBytes : (leadBytes seq kindTag reserved length body).length = body.length + 4 := rfl

/-! ## A continuation frame -/

@[simp] theorem contBytes_seq : frameSeq (contBytes seq kindTag reserved unused leadRef body) = seq := rfl
@[simp] theorem contBytes_kind : frameKind (contBytes seq kindTag reserved unused leadRef body) = kindTag :=
  flagByte_kind kindTag reserved 1#1
@[simp] theorem contBytes_cont : frameIsCont (contBytes seq kindTag reserved unused leadRef body) = true := by
  exact (flagByte_cont kindTag reserved 1#1).trans rfl
@[simp] theorem contBytes_reserved : frameReserved (contBytes seq kindTag reserved unused leadRef body) = reserved :=
  flagByte_reserved kindTag reserved 1#1
@[simp] theorem contBytes_unused : frameUnused (contBytes seq kindTag reserved unused leadRef body) = unused := rfl
@[simp] theorem contBytes_leadRef : frameLeadRef (contBytes seq kindTag reserved unused leadRef body) = leadRef := rfl
@[simp] theorem contBytes_body : frameBody (contBytes seq kindTag reserved unused leadRef body) = body := rfl
@[simp] theorem length_contBytes : (contBytes seq kindTag reserved unused leadRef body).length = body.length + 4 := rfl

end

/-! ## A frame is the encoding of its fields -/

/-- A frame of at least four bytes is its header and its body. -/
theorem frame_eta (frame : List Byte) (h : 4 ≤ frame.length) :
    frame = frameByte frame 0 :: frameByte frame 1 :: frameByte frame 2 :: frameByte frame 3 :: frameBody frame := by
  match frame, h with
  | h0 :: h1 :: h2 :: h3 :: body, _ => rfl

theorem leadBytes_eta (frame : List Byte) (h : 4 ≤ frame.length) (hc : frameIsCont frame = false) :
    leadBytes (frameSeq frame) (frameKind frame) (frameReserved frame) (frameLength frame) (frameBody frame) = frame := by
  have h1 := flagByte_eta (frameByte frame 1)
  rw [show (frameByte frame 1).getLsbD 4 = false from hc] at h1
  have h2 : (frameLength frame).extractLsb' 0 8 = frameByte frame 2 := half_low _ _
  have h3 : (frameLength frame).extractLsb' 8 8 = frameByte frame 3 := half_high _ _
  conv_rhs => rw [frame_eta frame h]
  unfold leadBytes frameSeq frameKind frameReserved
  rw [h2, h3]
  exact congrArg (fun b => frameByte frame 0 :: b :: frameByte frame 2 :: frameByte frame 3 :: frameBody frame) h1

theorem contBytes_eta (frame : List Byte) (h : 4 ≤ frame.length) (hc : frameIsCont frame = true) :
    contBytes (frameSeq frame) (frameKind frame) (frameReserved frame) (frameUnused frame) (frameLeadRef frame)
      (frameBody frame) = frame := by
  have h1 := flagByte_eta (frameByte frame 1)
  rw [show (frameByte frame 1).getLsbD 4 = true from hc] at h1
  conv_rhs => rw [frame_eta frame h]
  unfold contBytes frameSeq frameKind frameReserved frameUnused frameLeadRef
  exact congrArg (fun b => frameByte frame 0 :: b :: frameByte frame 2 :: frameByte frame 3 :: frameBody frame) h1

theorem length_frameBody (frame : List Byte) : (frameBody frame).length = frame.length - 4 := by
  simp [frameBody]

/-! ## The cases of decoding -/

theorem decodeFrame_lengthError {frame : List Byte} (h : frame.length < 4 ∨ 255 < frame.length) :
    decodeFrame frame = .error (.frameLength frame.length) := by
  simp [decodeFrame, h]

theorem decodeFrame_lead {frame : List Byte} (h : 4 ≤ frame.length) (h' : frame.length ≤ 255)
    (hc : frameIsCont frame = false) :
    decodeFrame frame = .ok (.frameLead (frameSeq frame) (frameKind frame) (frameReserved frame) (frameLength frame)
      (frameBody frame)) := by
  have h1 : ¬(frame.length < 4 ∨ 255 < frame.length) := by omega
  simp [decodeFrame, h1, hc]

theorem decodeFrame_cont {frame : List Byte} (h : 4 ≤ frame.length) (h' : frame.length ≤ 255)
    (hc : frameIsCont frame = true) :
    decodeFrame frame = .ok (.frameCont (frameSeq frame) (frameKind frame) (frameReserved frame) (frameUnused frame)
      (frameLeadRef frame) (frameBody frame)) := by
  have h1 : ¬(frame.length < 4 ∨ 255 < frame.length) := by omega
  simp [decodeFrame, h1, hc]

end Sys2Proof
end

