-- ==== Sys2Proof/Laws/Memory.lean ====
section
/-! SUPPORT. The laws of `rbuf`: what a read finds after a write, and that a write keeps the canonical form. -/

namespace Sys2Proof.Machine

open Sys2Proof

/-! ## Reading -/

@[simp] theorem Memory.read_nil (a : Nat) : Memory.read [] a = none := rfl

theorem Memory.read_cons (c : Host.Cell) (m : Memory) (a : Nat) :
    Memory.read (c :: m) a = if c.1 = a then some c.2 else Memory.read m a := rfl

theorem Memory.read_append (m n : Memory) (a : Nat) :
    Memory.read (m ++ n) a = (Memory.read m a).or (Memory.read n a) := by
  induction m with
  | nil => simp
  | cons c m ih =>
    simp only [List.cons_append, Memory.read_cons]
    split
    · simp
    · exact ih

/-- A filter on the offsets keeps what is read at the offsets it keeps, and hides the others. -/
theorem Memory.read_filter (p : Nat → Bool) (m : Memory) (a : Nat) :
    Memory.read (m.filter (fun c => p c.1)) a = if p a then Memory.read m a else none := by
  induction m with
  | nil => simp
  | cons c m ih =>
    by_cases hc : p c.1 <;> by_cases ha : c.1 = a <;> simp_all [Memory.read_cons]

theorem Memory.read_cellsFrom (x : Nat) (bs : List Byte) (a : Nat) :
    Memory.read (cellsFrom x bs) a = if x ≤ a then bs[a - x]? else none := by
  induction bs generalizing x with
  | nil => simp [cellsFrom]
  | cons b bs ih =>
    simp only [cellsFrom, Memory.read_cons, ih]
    rcases Nat.lt_trichotomy x a with h | h | h
    · have : a - x = (a - (x + 1)) + 1 := by omega
      rw [if_neg (by omega), if_pos (by omega), if_pos (by omega), this]
      simp
    · simp [h]
    · rw [if_neg (by omega), if_neg (by omega), if_neg (by omega)]

/-- Everything a write does to a read: inside the block the block's byte, outside it what was there. -/
theorem Memory.read_write (m : Memory) (x : Nat) (bs : List Byte) (a : Nat) :
    Memory.read (m.write x bs) a = if x ≤ a ∧ a < x + bs.length then bs[a - x]? else Memory.read m a := by
  unfold Memory.write
  rw [Memory.read_append, Memory.read_append, Memory.read_cellsFrom,
    Memory.read_filter (fun i => decide (i < x)) m a,
    Memory.read_filter (fun i => decide (x + bs.length ≤ i)) m a]
  rcases Nat.lt_or_ge a x with h | h
  · have h1 : ¬(x ≤ a) := by omega
    have h2 : ¬(x + bs.length ≤ a) := by omega
    simp [h, h1, h2]
  · rcases Nat.lt_or_ge a (x + bs.length) with h' | h'
    · have h1 : ¬(a < x) := by omega
      have h2 : ¬(x + bs.length ≤ a) := by omega
      simp [h, h', h1, h2]
    · have h1 : ¬(a < x) := by omega
      have h2 : ¬(a < x + bs.length) := by omega
      have h3 : bs[a - x]? = none := List.getElem?_eq_none (by omega)
      simp [h', h1, h2, h3]

theorem Memory.read_write_outside {m : Memory} {x : Nat} {bs : List Byte} {a : Nat}
    (h : a < x ∨ x + bs.length ≤ a) : Memory.read (m.write x bs) a = Memory.read m a := by
  rw [Memory.read_write, if_neg (by omega)]

theorem Memory.read_write_inside {m : Memory} {x : Nat} {bs : List Byte} {i : Nat} (h : i < bs.length) :
    Memory.read (m.write x bs) (x + i) = some bs[i] := by
  rw [Memory.read_write, if_pos (by omega)]
  simp [h]

/-! ## What an offset holds -/

theorem Memory.byteAt_of_read {m : Memory} {a : Nat} {b : Byte} (h : m.read a = some b) : m.byteAt a = b := by
  simp [Memory.byteAt, h]

theorem Memory.byteAt_unwritten {m : Memory} {a : Nat} (h : m.read a = none) :
    m.byteAt a = Config.rbufPowerOn a := by
  simp [Memory.byteAt, h]

theorem Memory.byteAt_write_inside {m : Memory} {x : Nat} {bs : List Byte} {i : Nat} (h : i < bs.length) :
    (m.write x bs).byteAt (x + i) = bs[i] :=
  Memory.byteAt_of_read (Memory.read_write_inside h)

theorem Memory.byteAt_write_outside {m : Memory} {x : Nat} {bs : List Byte} {a : Nat}
    (h : a < x ∨ x + bs.length ≤ a) : (m.write x bs).byteAt a = m.byteAt a := by
  simp [Memory.byteAt, Memory.read_write_outside h]

/-! ## Reading a block -/

@[simp] theorem Memory.length_readRange (m : Memory) (a n : Nat) : (m.readRange a n).length = n := by
  simp [Memory.readRange]

theorem Memory.getElem_readRange (m : Memory) (a n i : Nat) (h : i < (m.readRange a n).length) :
    (m.readRange a n)[i] = m.byteAt (a + i) := by
  simp [Memory.readRange]

@[simp] theorem Memory.readRange_zero (m : Memory) (a : Nat) : m.readRange a 0 = [] := rfl

/-- A block that reads byte for byte as a list is that list. -/
theorem Memory.readRange_eq {m : Memory} {a : Nat} {bs : List Byte}
    (h : ∀ i, (hi : i < bs.length) → m.byteAt (a + i) = bs[i]) : m.readRange a bs.length = bs := by
  apply List.ext_getElem (by simp)
  intro i _ h2
  rw [Memory.getElem_readRange, h i h2]

theorem Memory.readRange_write_self (m : Memory) (a : Nat) (bs : List Byte) :
    (m.write a bs).readRange a bs.length = bs :=
  Memory.readRange_eq fun _ hi => Memory.byteAt_write_inside hi

/-! ## The canonical form -/

theorem mem_cellsFrom {x : Nat} {bs : List Byte} {c : Host.Cell} (h : c ∈ cellsFrom x bs) :
    x ≤ c.1 ∧ c.1 < x + bs.length := by
  induction bs generalizing x with
  | nil => simp [cellsFrom] at h
  | cons b bs ih =>
    simp only [cellsFrom, List.mem_cons] at h
    rcases h with rfl | h
    · simp
    · have := ih h
      simp only [List.length_cons]
      omega

theorem cellsFrom_wf (x : Nat) (bs : List Byte) : Memory.wf (cellsFrom x bs) := by
  induction bs generalizing x with
  | nil => simp [cellsFrom]
  | cons b bs ih =>
    simp only [cellsFrom, Memory.wf, List.pairwise_cons]
    exact ⟨fun c hc => by have := mem_cellsFrom hc; omega, ih (x + 1)⟩

/-- The one memory operation that changes `rbuf` keeps the canonical form. -/
theorem Memory.write_wf {m : Memory} (h : m.wf) (x : Nat) (bs : List Byte) : (m.write x bs).wf := by
  unfold Memory.write
  simp only [Memory.wf, List.pairwise_append]
  refine ⟨h.filter _, ⟨cellsFrom_wf x bs, h.filter _, ?_⟩, ?_⟩
  · intro c hc d hd
    have := mem_cellsFrom hc
    simp only [List.mem_filter, decide_eq_true_eq] at hd
    omega
  · intro c hc d hd
    simp only [List.mem_filter, List.mem_append, decide_eq_true_eq] at hc hd
    rcases hd with hd | hd
    · have := mem_cellsFrom hd
      omega
    · omega

theorem Memory.write_within {m : Memory} {cap x : Nat} {bs : List Byte} (h : m.within cap)
    (hx : x + bs.length ≤ cap) : (m.write x bs).within cap := by
  intro c hc
  simp only [Memory.write, List.mem_append, List.mem_filter] at hc
  rcases hc with hc | hc | hc
  · exact h c hc.1
  · have := mem_cellsFrom hc
    omega
  · exact h c hc.1

/-- Two canonical memories that read alike are the same data. -/
theorem Memory.ext_of_wf {m n : Memory} (hm : m.wf) (hn : n.wf) (h : ∀ a, m.read a = n.read a) : m = n := by
  have below : ∀ {k : Memory} {x : Nat}, (∀ c ∈ k, x < c.1) → ∀ a, a ≤ x → k.read a = none := by
    intro k x hk a ha
    induction k with
    | nil => rfl
    | cons c k ih =>
      rw [Memory.read_cons, if_neg (by have := hk c (by simp); omega)]
      exact ih fun d hd => hk d (by simp [hd])
  induction m generalizing n with
  | nil =>
    cases n with
    | nil => rfl
    | cons d n => simpa [Memory.read_cons] using h d.1
  | cons c m ih =>
    rw [Memory.wf, List.pairwise_cons] at hm
    cases n with
    | nil => simpa [Memory.read_cons] using h c.1
    | cons d n =>
      rw [Memory.wf, List.pairwise_cons] at hn
      have hcd : c.1 = d.1 := by
        rcases Nat.lt_trichotomy c.1 d.1 with hlt | heq | hgt
        · have h1 := h c.1
          rw [Memory.read_cons, if_pos rfl, Memory.read_cons, if_neg (by omega), below hn.1 _ (by omega)] at h1
          cases h1
        · exact heq
        · have h1 := h d.1
          rw [Memory.read_cons, if_neg (by omega), Memory.read_cons, if_pos rfl, below hm.1 _ (by omega)] at h1
          cases h1
      have hval : c.2 = d.2 := by
        have h1 := h c.1
        rw [Memory.read_cons, if_pos rfl, Memory.read_cons, if_pos hcd.symm] at h1
        exact Option.some.inj h1
      have hrest : m = n := by
        refine ih hm.2 hn.2 fun a => ?_
        rcases Nat.lt_or_ge c.1 a with hlt | hge
        · have h1 := h a
          rwa [Memory.read_cons, if_neg (by omega), Memory.read_cons, if_neg (by omega)] at h1
        · rw [below hm.1 a hge, below hn.1 a (by omega)]
      rw [hrest, Prod.ext hcd hval]

end Sys2Proof.Machine
end

