-- ==== Sys2Proof/Laws/State.lean ====
section
/-! SUPPORT. What each named update of the state does to each field, so that no later proof unfolds a record update. -/

namespace Sys2Proof.Machine

open Sys2Proof

/-! ## `countFrame` -/

@[simp] theorem State.countFrame_outSeqNum (s : State) :
    s.countFrame.outSeqNum = s.outSeqNum + 1 := rfl
@[simp] theorem State.countFrame_inSeqNum (s : State) :
    s.countFrame.inSeqNum = s.inSeqNum := rfl
@[simp] theorem State.countFrame_phase (s : State) :
    s.countFrame.phase = s.phase := rfl
@[simp] theorem State.countFrame_declLen (s : State) :
    s.countFrame.declLen = s.declLen := rfl
@[simp] theorem State.countFrame_rxKind (s : State) :
    s.countFrame.rxKind = s.rxKind := rfl
@[simp] theorem State.countFrame_rbuf (s : State) :
    s.countFrame.rbuf = s.rbuf := rfl
@[simp] theorem State.countFrame_params (s : State) :
    s.countFrame.params = s.params := rfl
@[simp] theorem State.countFrame_pending (s : State) :
    s.countFrame.pending = s.pending := rfl
@[simp] theorem State.countFrame_sinkTurns (s : State) :
    s.countFrame.sinkTurns = s.sinkTurns := rfl
@[simp] theorem State.countFrame_sinkCalls (s : State) :
    s.countFrame.sinkCalls = s.sinkCalls := rfl
@[simp] theorem State.countFrame_outputs (s : State) :
    s.countFrame.outputs = s.outputs := rfl

/-! ## `expectAfter` -/

@[simp] theorem State.expectAfter_outSeqNum (s : State) (seq : Byte) :
    (s.expectAfter seq).outSeqNum = s.outSeqNum := rfl
@[simp] theorem State.expectAfter_inSeqNum (s : State) (seq : Byte) :
    (s.expectAfter seq).inSeqNum = seq + 1 := rfl
@[simp] theorem State.expectAfter_phase (s : State) (seq : Byte) :
    (s.expectAfter seq).phase = s.phase := rfl
@[simp] theorem State.expectAfter_declLen (s : State) (seq : Byte) :
    (s.expectAfter seq).declLen = s.declLen := rfl
@[simp] theorem State.expectAfter_rxKind (s : State) (seq : Byte) :
    (s.expectAfter seq).rxKind = s.rxKind := rfl
@[simp] theorem State.expectAfter_rbuf (s : State) (seq : Byte) :
    (s.expectAfter seq).rbuf = s.rbuf := rfl
@[simp] theorem State.expectAfter_params (s : State) (seq : Byte) :
    (s.expectAfter seq).params = s.params := rfl
@[simp] theorem State.expectAfter_pending (s : State) (seq : Byte) :
    (s.expectAfter seq).pending = s.pending := rfl
@[simp] theorem State.expectAfter_sinkTurns (s : State) (seq : Byte) :
    (s.expectAfter seq).sinkTurns = s.sinkTurns := rfl
@[simp] theorem State.expectAfter_sinkCalls (s : State) (seq : Byte) :
    (s.expectAfter seq).sinkCalls = s.sinkCalls := rfl
@[simp] theorem State.expectAfter_outputs (s : State) (seq : Byte) :
    (s.expectAfter seq).outputs = s.outputs := rfl

/-! ## `enterPhase` -/

@[simp] theorem State.enterPhase_outSeqNum (s : State) (p : Phase) :
    (s.enterPhase p).outSeqNum = s.outSeqNum := rfl
@[simp] theorem State.enterPhase_inSeqNum (s : State) (p : Phase) :
    (s.enterPhase p).inSeqNum = s.inSeqNum := rfl
@[simp] theorem State.enterPhase_phase (s : State) (p : Phase) :
    (s.enterPhase p).phase = p := rfl
@[simp] theorem State.enterPhase_declLen (s : State) (p : Phase) :
    (s.enterPhase p).declLen = s.declLen := rfl
@[simp] theorem State.enterPhase_rxKind (s : State) (p : Phase) :
    (s.enterPhase p).rxKind = s.rxKind := rfl
@[simp] theorem State.enterPhase_rbuf (s : State) (p : Phase) :
    (s.enterPhase p).rbuf = s.rbuf := rfl
@[simp] theorem State.enterPhase_params (s : State) (p : Phase) :
    (s.enterPhase p).params = s.params := rfl
@[simp] theorem State.enterPhase_pending (s : State) (p : Phase) :
    (s.enterPhase p).pending = s.pending := rfl
@[simp] theorem State.enterPhase_sinkTurns (s : State) (p : Phase) :
    (s.enterPhase p).sinkTurns = s.sinkTurns := rfl
@[simp] theorem State.enterPhase_sinkCalls (s : State) (p : Phase) :
    (s.enterPhase p).sinkCalls = s.sinkCalls := rfl
@[simp] theorem State.enterPhase_outputs (s : State) (p : Phase) :
    (s.enterPhase p).outputs = s.outputs := rfl

/-! ## `latchLead` -/

@[simp] theorem State.latchLead_outSeqNum (s : State) (length : Half) (tag : Nibble) :
    (s.latchLead length tag).outSeqNum = s.outSeqNum := rfl
@[simp] theorem State.latchLead_inSeqNum (s : State) (length : Half) (tag : Nibble) :
    (s.latchLead length tag).inSeqNum = s.inSeqNum := rfl
@[simp] theorem State.latchLead_phase (s : State) (length : Half) (tag : Nibble) :
    (s.latchLead length tag).phase = s.phase := rfl
@[simp] theorem State.latchLead_declLen (s : State) (length : Half) (tag : Nibble) :
    (s.latchLead length tag).declLen = length := rfl
@[simp] theorem State.latchLead_rxKind (s : State) (length : Half) (tag : Nibble) :
    (s.latchLead length tag).rxKind = tag := rfl
@[simp] theorem State.latchLead_rbuf (s : State) (length : Half) (tag : Nibble) :
    (s.latchLead length tag).rbuf = s.rbuf := rfl
@[simp] theorem State.latchLead_params (s : State) (length : Half) (tag : Nibble) :
    (s.latchLead length tag).params = s.params := rfl
@[simp] theorem State.latchLead_pending (s : State) (length : Half) (tag : Nibble) :
    (s.latchLead length tag).pending = s.pending := rfl
@[simp] theorem State.latchLead_sinkTurns (s : State) (length : Half) (tag : Nibble) :
    (s.latchLead length tag).sinkTurns = s.sinkTurns := rfl
@[simp] theorem State.latchLead_sinkCalls (s : State) (length : Half) (tag : Nibble) :
    (s.latchLead length tag).sinkCalls = s.sinkCalls := rfl
@[simp] theorem State.latchLead_outputs (s : State) (length : Half) (tag : Nibble) :
    (s.latchLead length tag).outputs = s.outputs := rfl

/-! ## `storeAt` -/

@[simp] theorem State.storeAt_outSeqNum (s : State) (a : Nat) (bs : List Byte) :
    (s.storeAt a bs).outSeqNum = s.outSeqNum := rfl
@[simp] theorem State.storeAt_inSeqNum (s : State) (a : Nat) (bs : List Byte) :
    (s.storeAt a bs).inSeqNum = s.inSeqNum := rfl
@[simp] theorem State.storeAt_phase (s : State) (a : Nat) (bs : List Byte) :
    (s.storeAt a bs).phase = s.phase := rfl
@[simp] theorem State.storeAt_declLen (s : State) (a : Nat) (bs : List Byte) :
    (s.storeAt a bs).declLen = s.declLen := rfl
@[simp] theorem State.storeAt_rxKind (s : State) (a : Nat) (bs : List Byte) :
    (s.storeAt a bs).rxKind = s.rxKind := rfl
@[simp] theorem State.storeAt_rbuf (s : State) (a : Nat) (bs : List Byte) :
    (s.storeAt a bs).rbuf = s.rbuf.write a bs := rfl
@[simp] theorem State.storeAt_params (s : State) (a : Nat) (bs : List Byte) :
    (s.storeAt a bs).params = s.params := rfl
@[simp] theorem State.storeAt_pending (s : State) (a : Nat) (bs : List Byte) :
    (s.storeAt a bs).pending = s.pending := rfl
@[simp] theorem State.storeAt_sinkTurns (s : State) (a : Nat) (bs : List Byte) :
    (s.storeAt a bs).sinkTurns = s.sinkTurns := rfl
@[simp] theorem State.storeAt_sinkCalls (s : State) (a : Nat) (bs : List Byte) :
    (s.storeAt a bs).sinkCalls = s.sinkCalls := rfl
@[simp] theorem State.storeAt_outputs (s : State) (a : Nat) (bs : List Byte) :
    (s.storeAt a bs).outputs = s.outputs := rfl

/-! ## `clearRegisters` -/

@[simp] theorem State.clearRegisters_outSeqNum (s : State) :
    s.clearRegisters.outSeqNum = 0x00 := rfl
@[simp] theorem State.clearRegisters_inSeqNum (s : State) :
    s.clearRegisters.inSeqNum = 0x00 := rfl
@[simp] theorem State.clearRegisters_phase (s : State) :
    s.clearRegisters.phase = .idle := rfl
@[simp] theorem State.clearRegisters_declLen (s : State) :
    s.clearRegisters.declLen = 0x0000 := rfl
@[simp] theorem State.clearRegisters_rxKind (s : State) :
    s.clearRegisters.rxKind = 0x0 := rfl
@[simp] theorem State.clearRegisters_rbuf (s : State) :
    s.clearRegisters.rbuf = s.rbuf := rfl
@[simp] theorem State.clearRegisters_params (s : State) :
    s.clearRegisters.params = s.params := rfl
@[simp] theorem State.clearRegisters_pending (s : State) :
    s.clearRegisters.pending = s.pending := rfl
@[simp] theorem State.clearRegisters_sinkTurns (s : State) :
    s.clearRegisters.sinkTurns = s.sinkTurns := rfl
@[simp] theorem State.clearRegisters_sinkCalls (s : State) :
    s.clearRegisters.sinkCalls = s.sinkCalls := rfl
@[simp] theorem State.clearRegisters_outputs (s : State) :
    s.clearRegisters.outputs = s.outputs := rfl

/-! ## `takeTurn` -/

@[simp] theorem State.takeTurn_outSeqNum (s : State) :
    s.takeTurn.outSeqNum = s.outSeqNum := rfl
@[simp] theorem State.takeTurn_inSeqNum (s : State) :
    s.takeTurn.inSeqNum = s.inSeqNum := rfl
@[simp] theorem State.takeTurn_phase (s : State) :
    s.takeTurn.phase = s.phase := rfl
@[simp] theorem State.takeTurn_declLen (s : State) :
    s.takeTurn.declLen = s.declLen := rfl
@[simp] theorem State.takeTurn_rxKind (s : State) :
    s.takeTurn.rxKind = s.rxKind := rfl
@[simp] theorem State.takeTurn_rbuf (s : State) :
    s.takeTurn.rbuf = s.rbuf := rfl
@[simp] theorem State.takeTurn_params (s : State) :
    s.takeTurn.params = s.params := rfl
@[simp] theorem State.takeTurn_pending (s : State) :
    s.takeTurn.pending = s.pending := rfl
@[simp] theorem State.takeTurn_sinkTurns (s : State) :
    s.takeTurn.sinkTurns = s.sinkTurns.tail := rfl
@[simp] theorem State.takeTurn_sinkCalls (s : State) :
    s.takeTurn.sinkCalls = s.sinkCalls + 1 := rfl
@[simp] theorem State.takeTurn_outputs (s : State) :
    s.takeTurn.outputs = s.outputs := rfl

/-! ## `dropRequest` -/

@[simp] theorem State.dropRequest_outSeqNum (s : State) :
    s.dropRequest.outSeqNum = s.outSeqNum := rfl
@[simp] theorem State.dropRequest_inSeqNum (s : State) :
    s.dropRequest.inSeqNum = s.inSeqNum := rfl
@[simp] theorem State.dropRequest_phase (s : State) :
    s.dropRequest.phase = s.phase := rfl
@[simp] theorem State.dropRequest_declLen (s : State) :
    s.dropRequest.declLen = s.declLen := rfl
@[simp] theorem State.dropRequest_rxKind (s : State) :
    s.dropRequest.rxKind = s.rxKind := rfl
@[simp] theorem State.dropRequest_rbuf (s : State) :
    s.dropRequest.rbuf = s.rbuf := rfl
@[simp] theorem State.dropRequest_params (s : State) :
    s.dropRequest.params = s.params := rfl
@[simp] theorem State.dropRequest_pending (s : State) :
    s.dropRequest.pending = s.pending.tail := rfl
@[simp] theorem State.dropRequest_sinkTurns (s : State) :
    s.dropRequest.sinkTurns = s.sinkTurns := rfl
@[simp] theorem State.dropRequest_sinkCalls (s : State) :
    s.dropRequest.sinkCalls = s.sinkCalls := rfl
@[simp] theorem State.dropRequest_outputs (s : State) :
    s.dropRequest.outputs = s.outputs := rfl

/-! ## `emit` -/

@[simp] theorem State.emit_outSeqNum (s : State) (o : Output) :
    (s.emit o).outSeqNum = s.outSeqNum := rfl
@[simp] theorem State.emit_inSeqNum (s : State) (o : Output) :
    (s.emit o).inSeqNum = s.inSeqNum := rfl
@[simp] theorem State.emit_phase (s : State) (o : Output) :
    (s.emit o).phase = s.phase := rfl
@[simp] theorem State.emit_declLen (s : State) (o : Output) :
    (s.emit o).declLen = s.declLen := rfl
@[simp] theorem State.emit_rxKind (s : State) (o : Output) :
    (s.emit o).rxKind = s.rxKind := rfl
@[simp] theorem State.emit_rbuf (s : State) (o : Output) :
    (s.emit o).rbuf = s.rbuf := rfl
@[simp] theorem State.emit_params (s : State) (o : Output) :
    (s.emit o).params = s.params := rfl
@[simp] theorem State.emit_pending (s : State) (o : Output) :
    (s.emit o).pending = s.pending := rfl
@[simp] theorem State.emit_sinkTurns (s : State) (o : Output) :
    (s.emit o).sinkTurns = s.sinkTurns := rfl
@[simp] theorem State.emit_sinkCalls (s : State) (o : Output) :
    (s.emit o).sinkCalls = s.sinkCalls := rfl
@[simp] theorem State.emit_outputs (s : State) (o : Output) :
    (s.emit o).outputs = s.outputs ++ [o] := rfl

/-! ## Ending an operation -/

@[simp] theorem State.giveBack_eq (s : State) (caller : Caller) (r : Result) :
    s.giveBack caller r = s.emit (.returned caller r) := rfl
@[simp] theorem State.endWith_eq (s : State) (st : Status) :
    s.endWith st = s.emit (.returned .driver (.status st)) := rfl
@[simp] theorem State.reject_eq (s : State) (caller : Caller) (st : Status) :
    s.reject caller st = s.emit (.returned caller (.rx st false)) := rfl

/-! ## `complete` -/

@[simp] theorem State.complete_outSeqNum (s : State) (caller : Caller) :
    (s.complete caller).outSeqNum = s.outSeqNum := rfl
@[simp] theorem State.complete_inSeqNum (s : State) (caller : Caller) :
    (s.complete caller).inSeqNum = s.inSeqNum := rfl
@[simp] theorem State.complete_phase (s : State) (caller : Caller) :
    (s.complete caller).phase = .idle := rfl
@[simp] theorem State.complete_declLen (s : State) (caller : Caller) :
    (s.complete caller).declLen = s.declLen := rfl
@[simp] theorem State.complete_rxKind (s : State) (caller : Caller) :
    (s.complete caller).rxKind = s.rxKind := rfl
@[simp] theorem State.complete_rbuf (s : State) (caller : Caller) :
    (s.complete caller).rbuf = s.rbuf := rfl
@[simp] theorem State.complete_params (s : State) (caller : Caller) :
    (s.complete caller).params = s.params := rfl
@[simp] theorem State.complete_pending (s : State) (caller : Caller) :
    (s.complete caller).pending = s.pending := rfl
@[simp] theorem State.complete_sinkTurns (s : State) (caller : Caller) :
    (s.complete caller).sinkTurns = s.sinkTurns := rfl
@[simp] theorem State.complete_sinkCalls (s : State) (caller : Caller) :
    (s.complete caller).sinkCalls = s.sinkCalls := rfl
@[simp] theorem State.complete_outputs (s : State) (caller : Caller) :
    (s.complete caller).outputs = s.outputs ++
      [.dispatch s.rxKind (s.rbuf.readRange 0 s.declLen.toNat), .returned caller (.rx .ok true)] := by
  simp [State.complete]

end Sys2Proof.Machine
end

