-- ==== Sys2Proof/Laws/Reassembler.lean ====
section
/-! SUPPORT. What the reassembler's operations do: one equation for each case, one lemma that lists the cases, and what
every case keeps. -/

namespace Sys2Proof.Machine

open Sys2Proof

/-! ## `FRAME.LEAD` -/

/-- An accepted leading frame, before its completion test (R104). -/
def acceptLead (seq : Byte) (tag : Nibble) (length : Half) (body : List Byte) (s : State) : State :=
  ((s.storeAt 0 (body.take (leadSpan length))).latchLead length tag).expectAfter seq

section
variable {caller : Caller} {seq : Byte} {tag : Nibble} {length : Half} {body : List Byte} {s : State}

theorem leadFrame_overflow (h : s.params.reasmCap < length.toNat) :
    leadFrame caller seq tag length body s =
      s.emit (.returned caller (.rx (.reassemblyOverflow length.toNat) false)) := by
  simp [leadFrame, h]

theorem leadFrame_short (h : length.toNat ≤ s.params.reasmCap) (hb : body.length < leadSpan length) :
    leadFrame caller seq tag length body s =
      s.emit (.returned caller (.rx (.malformedFrame (4 + body.length)) false)) := by
  have h' : ¬(s.params.reasmCap < length.toNat) := by omega
  simp [leadFrame, h', hb]

theorem leadFrame_completes (h : length.toNat ≤ s.params.reasmCap) (hb : leadSpan length ≤ body.length)
    (hl : length.toNat ≤ 251) :
    leadFrame caller seq tag length body s = (acceptLead seq tag length body s).complete caller := by
  have h' : ¬(s.params.reasmCap < length.toNat) := by omega
  have hb' : ¬(body.length < leadSpan length) := by omega
  simp [leadFrame, acceptLead, h', hb', hl]

theorem leadFrame_accumulates (h : length.toNat ≤ s.params.reasmCap) (hb : leadSpan length ≤ body.length)
    (hl : 251 < length.toNat) :
    leadFrame caller seq tag length body s =
      ((acceptLead seq tag length body s).enterPhase .accumulating).emit (.returned caller (.rx .ok false)) := by
  have h' : ¬(s.params.reasmCap < length.toNat) := by omega
  have hb' : ¬(body.length < leadSpan length) := by omega
  have hl' : ¬(length.toNat ≤ 251) := by omega
  simp [leadFrame, acceptLead, h', hb', hl']

/-- The four ends of a leading frame. -/
theorem leadFrame_cases (caller : Caller) (seq : Byte) (tag : Nibble) (length : Half) (body : List Byte) (s : State) :
    (s.params.reasmCap < length.toNat ∧ leadFrame caller seq tag length body s =
      s.emit (.returned caller (.rx (.reassemblyOverflow length.toNat) false))) ∨
    (length.toNat ≤ s.params.reasmCap ∧ body.length < leadSpan length ∧ leadFrame caller seq tag length body s =
      s.emit (.returned caller (.rx (.malformedFrame (4 + body.length)) false))) ∨
    (length.toNat ≤ s.params.reasmCap ∧ leadSpan length ≤ body.length ∧ length.toNat ≤ 251 ∧
      leadFrame caller seq tag length body s = (acceptLead seq tag length body s).complete caller) ∨
    (length.toNat ≤ s.params.reasmCap ∧ leadSpan length ≤ body.length ∧ 251 < length.toNat ∧
      leadFrame caller seq tag length body s =
        ((acceptLead seq tag length body s).enterPhase .accumulating).emit (.returned caller (.rx .ok false))) := by
  rcases Nat.lt_or_ge s.params.reasmCap length.toNat with h | h
  · exact .inl ⟨h, leadFrame_overflow h⟩
  · rcases Nat.lt_or_ge body.length (leadSpan length) with hb | hb
    · exact .inr (.inl ⟨h, hb, leadFrame_short h hb⟩)
    · rcases Nat.lt_or_ge 251 length.toNat with hl | hl
      · exact .inr (.inr (.inr ⟨h, hb, hl, leadFrame_accumulates h hb hl⟩))
      · exact .inr (.inr (.inl ⟨h, hb, hl, leadFrame_completes h hb hl⟩))

end

/-! ## `FRAME.CONT` -/

/-- A continuation frame accepted into the packet in reassembly, before its completion test (R105). -/
def acceptCont (seq leadRef : Byte) (body : List Byte) (s : State) : State :=
  (s.storeAt (fragBase seq leadRef) body).expectAfter seq

section
variable {caller : Caller} {seq leadRef : Byte} {body : List Byte} {s : State}

theorem contFrame_orphan (h : s.phase = .idle) :
    contFrame caller seq leadRef body s = (s.expectAfter seq).emit (.returned caller (.rx .ok false)) := by
  simp [contFrame, h]

theorem contFrame_overflow (h : s.phase = .accumulating) (he : s.params.reasmCap < fragEnd seq leadRef body) :
    contFrame caller seq leadRef body s =
      s.emit (.returned caller (.rx (.reassemblyOverflow (fragEnd seq leadRef body)) false)) := by
  simp [contFrame, h, he]

theorem contFrame_completes (h : s.phase = .accumulating) (he : fragEnd seq leadRef body ≤ s.params.reasmCap)
    (hd : fragEnd seq leadRef body = s.declLen.toNat) :
    contFrame caller seq leadRef body s = (acceptCont seq leadRef body s).complete caller := by
  have he' : ¬(s.params.reasmCap < s.declLen.toNat) := by omega
  simp [contFrame, acceptCont, h, he', hd]

theorem contFrame_continues (h : s.phase = .accumulating) (he : fragEnd seq leadRef body ≤ s.params.reasmCap)
    (hd : fragEnd seq leadRef body ≠ s.declLen.toNat) :
    contFrame caller seq leadRef body s =
      (acceptCont seq leadRef body s).emit (.returned caller (.rx .ok false)) := by
  have he' : ¬(s.params.reasmCap < fragEnd seq leadRef body) := by omega
  simp [contFrame, acceptCont, h, he', hd]

/-- The four ends of a continuation frame that has passed the acceptance rule. -/
theorem contFrame_cases (caller : Caller) (seq leadRef : Byte) (body : List Byte) (s : State) :
    (s.phase = .idle ∧ contFrame caller seq leadRef body s =
      (s.expectAfter seq).emit (.returned caller (.rx .ok false))) ∨
    (s.phase = .accumulating ∧ s.params.reasmCap < fragEnd seq leadRef body ∧ contFrame caller seq leadRef body s =
      s.emit (.returned caller (.rx (.reassemblyOverflow (fragEnd seq leadRef body)) false))) ∨
    (s.phase = .accumulating ∧ fragEnd seq leadRef body ≤ s.params.reasmCap ∧
      fragEnd seq leadRef body = s.declLen.toNat ∧
      contFrame caller seq leadRef body s = (acceptCont seq leadRef body s).complete caller) ∨
    (s.phase = .accumulating ∧ fragEnd seq leadRef body ≤ s.params.reasmCap ∧
      fragEnd seq leadRef body ≠ s.declLen.toNat ∧
      contFrame caller seq leadRef body s =
        (acceptCont seq leadRef body s).emit (.returned caller (.rx .ok false))) := by
  cases hp : s.phase with
  | idle => exact .inl ⟨rfl, contFrame_orphan hp⟩
  | accumulating =>
    rcases Nat.lt_or_ge s.params.reasmCap (fragEnd seq leadRef body) with h | h
    · exact .inr (.inl ⟨rfl, h, contFrame_overflow hp h⟩)
    · by_cases hd : fragEnd seq leadRef body = s.declLen.toNat
      · exact .inr (.inr (.inl ⟨rfl, h, hd, contFrame_completes hp h hd⟩))
      · exact .inr (.inr (.inr ⟨rfl, h, hd, contFrame_continues hp h hd⟩))

end

/-! ## `RX.FRAME` -/

section
variable {caller : Caller} {frame : List Byte} {s : State}

theorem rxFrame_malformed (h : frame.length < 4 ∨ 255 < frame.length) :
    rxFrame caller frame s = s.emit (.returned caller (.rx (.malformedFrame frame.length) false)) := by
  simp [rxFrame, h]

theorem rxFrame_gap (h : 4 ≤ frame.length) (h' : frame.length ≤ 255) (hc : frameIsCont frame = true)
    (hs : frameSeq frame ≠ s.inSeqNum) :
    rxFrame caller frame s = s.emit (.returned caller (.rx (.sequenceGap (frameSeq frame)) false)) := by
  have h1 : ¬(frame.length < 4 ∨ 255 < frame.length) := by omega
  simp [rxFrame, h1, hc, hs]

theorem rxFrame_lead (h : 4 ≤ frame.length) (h' : frame.length ≤ 255) (hc : frameIsCont frame = false) :
    rxFrame caller frame s =
      leadFrame caller (frameSeq frame) (frameKind frame) (frameLength frame) (frameBody frame) s := by
  have h1 : ¬(frame.length < 4 ∨ 255 < frame.length) := by omega
  simp [rxFrame, h1, hc]

theorem rxFrame_cont (h : 4 ≤ frame.length) (h' : frame.length ≤ 255) (hc : frameIsCont frame = true)
    (hs : frameSeq frame = s.inSeqNum) :
    rxFrame caller frame s = contFrame caller (frameSeq frame) (frameLeadRef frame) (frameBody frame) s := by
  have h1 : ¬(frame.length < 4 ∨ 255 < frame.length) := by omega
  simp [rxFrame, h1, hc, hs]

/-- The four ways `RX.FRAME` goes: no frame, a gap, a leading frame, a continuation frame in sequence. -/
theorem rxFrame_cases (caller : Caller) (frame : List Byte) (s : State) :
    ((frame.length < 4 ∨ 255 < frame.length) ∧
      rxFrame caller frame s = s.emit (.returned caller (.rx (.malformedFrame frame.length) false))) ∨
    (4 ≤ frame.length ∧ frame.length ≤ 255 ∧ frameIsCont frame = true ∧ frameSeq frame ≠ s.inSeqNum ∧
      rxFrame caller frame s = s.emit (.returned caller (.rx (.sequenceGap (frameSeq frame)) false))) ∨
    (4 ≤ frame.length ∧ frame.length ≤ 255 ∧ frameIsCont frame = false ∧
      rxFrame caller frame s =
        leadFrame caller (frameSeq frame) (frameKind frame) (frameLength frame) (frameBody frame) s) ∨
    (4 ≤ frame.length ∧ frame.length ≤ 255 ∧ frameIsCont frame = true ∧ frameSeq frame = s.inSeqNum ∧
      rxFrame caller frame s =
        contFrame caller (frameSeq frame) (frameLeadRef frame) (frameBody frame) s) := by
  by_cases h : frame.length < 4 ∨ 255 < frame.length
  · exact .inl ⟨h, rxFrame_malformed h⟩
  · have h1 : 4 ≤ frame.length := by omega
    have h2 : frame.length ≤ 255 := by omega
    cases hc : frameIsCont frame with
    | false => exact .inr (.inr (.inl ⟨h1, h2, rfl, rxFrame_lead h1 h2 hc⟩))
    | true =>
      by_cases hs : frameSeq frame = s.inSeqNum
      · exact .inr (.inr (.inr ⟨h1, h2, rfl, hs, rxFrame_cont h1 h2 hc hs⟩))
      · exact .inr (.inl ⟨h1, h2, rfl, hs, rxFrame_gap h1 h2 hc hs⟩)

end

/-! ## What an `RX.FRAME` keeps -/

/-- A property that every rejection, orphan and acceptance of a frame has, `RX.FRAME` has: the case analysis, done once. -/
theorem rxFrame_of_ends (caller : Caller) (frame : List Byte) (s : State) (Q : State → Prop)
    (reject : ∀ st, st ≠ .ok → Q (s.emit (.returned caller (.rx st false))))
    (orphan : frameIsCont frame = true → s.phase = .idle →
      Q ((s.expectAfter (frameSeq frame)).emit (.returned caller (.rx .ok false))))
    (leadDone : frameIsCont frame = false → (frameLength frame).toNat ≤ s.params.reasmCap →
      leadSpan (frameLength frame) ≤ (frameBody frame).length → (frameLength frame).toNat ≤ 251 →
      Q ((acceptLead (frameSeq frame) (frameKind frame) (frameLength frame) (frameBody frame) s).complete caller))
    (leadOpen : frameIsCont frame = false → (frameLength frame).toNat ≤ s.params.reasmCap →
      leadSpan (frameLength frame) ≤ (frameBody frame).length → 251 < (frameLength frame).toNat →
      Q (((acceptLead (frameSeq frame) (frameKind frame) (frameLength frame) (frameBody frame) s).enterPhase
        .accumulating).emit (.returned caller (.rx .ok false))))
    (contDone : frameIsCont frame = true → s.phase = .accumulating →
      fragEnd (frameSeq frame) (frameLeadRef frame) (frameBody frame) ≤ s.params.reasmCap →
      fragEnd (frameSeq frame) (frameLeadRef frame) (frameBody frame) = s.declLen.toNat →
      Q ((acceptCont (frameSeq frame) (frameLeadRef frame) (frameBody frame) s).complete caller))
    (contOpen : frameIsCont frame = true → s.phase = .accumulating →
      fragEnd (frameSeq frame) (frameLeadRef frame) (frameBody frame) ≤ s.params.reasmCap →
      fragEnd (frameSeq frame) (frameLeadRef frame) (frameBody frame) ≠ s.declLen.toNat →
      Q ((acceptCont (frameSeq frame) (frameLeadRef frame) (frameBody frame) s).emit
        (.returned caller (.rx .ok false)))) :
    Q (rxFrame caller frame s) := by
  rcases rxFrame_cases caller frame s with ⟨_, h⟩ | ⟨_, _, _, _, h⟩ | ⟨_, _, hc, h⟩ | ⟨_, _, hc, _, h⟩
  · rw [h]; exact reject _ (by simp)
  · rw [h]; exact reject _ (by simp)
  · rw [h]
    rcases leadFrame_cases caller (frameSeq frame) (frameKind frame) (frameLength frame) (frameBody frame) s
      with ⟨_, h⟩ | ⟨_, _, h⟩ | ⟨h1, h2, h3, h⟩ | ⟨h1, h2, h3, h⟩
    · rw [h]; exact reject _ (by simp)
    · rw [h]; exact reject _ (by simp)
    · rw [h]; exact leadDone hc h1 h2 h3
    · rw [h]; exact leadOpen hc h1 h2 h3
  · rw [h]
    rcases contFrame_cases caller (frameSeq frame) (frameLeadRef frame) (frameBody frame) s
      with ⟨h1, h⟩ | ⟨_, _, h⟩ | ⟨h1, h2, h3, h⟩ | ⟨h1, h2, h3, h⟩
    · rw [h]; exact orphan hc h1
    · rw [h]; exact reject _ (by simp)
    · rw [h]; exact contDone hc h1 h2 h3
    · rw [h]; exact contOpen hc h1 h2 h3

/-- The fields no `RX.FRAME` touches. -/
theorem rxFrame_keeps (caller : Caller) (frame : List Byte) (s : State) :
    (rxFrame caller frame s).outSeqNum = s.outSeqNum ∧ (rxFrame caller frame s).params = s.params ∧
    (rxFrame caller frame s).pending = s.pending ∧ (rxFrame caller frame s).sinkTurns = s.sinkTurns ∧
    (rxFrame caller frame s).sinkCalls = s.sinkCalls := by
  apply rxFrame_of_ends caller frame s (fun t => t.outSeqNum = s.outSeqNum ∧ t.params = s.params ∧
    t.pending = s.pending ∧ t.sinkTurns = s.sinkTurns ∧ t.sinkCalls = s.sinkCalls) <;>
    intros <;> simp [acceptLead, acceptCont]

@[simp] theorem rxFrame_outSeqNum (caller : Caller) (frame : List Byte) (s : State) :
    (rxFrame caller frame s).outSeqNum = s.outSeqNum := (rxFrame_keeps caller frame s).1
@[simp] theorem rxFrame_params (caller : Caller) (frame : List Byte) (s : State) :
    (rxFrame caller frame s).params = s.params := (rxFrame_keeps caller frame s).2.1
@[simp] theorem rxFrame_pending (caller : Caller) (frame : List Byte) (s : State) :
    (rxFrame caller frame s).pending = s.pending := (rxFrame_keeps caller frame s).2.2.1
@[simp] theorem rxFrame_sinkTurns (caller : Caller) (frame : List Byte) (s : State) :
    (rxFrame caller frame s).sinkTurns = s.sinkTurns := (rxFrame_keeps caller frame s).2.2.2.1
@[simp] theorem rxFrame_sinkCalls (caller : Caller) (frame : List Byte) (s : State) :
    (rxFrame caller frame s).sinkCalls = s.sinkCalls := (rxFrame_keeps caller frame s).2.2.2.2

/-- What `RX.FRAME` sends out: its result, behind at most one `Dispatch`. -/
theorem rxFrame_outputs (caller : Caller) (frame : List Byte) (s : State) :
    ∃ st completed, (rxFrame caller frame s).outputs = s.outputs ++
      ((if completed then [.dispatch (rxFrame caller frame s).rxKind
        ((rxFrame caller frame s).rbuf.readRange 0 (rxFrame caller frame s).declLen.toNat)] else [])
        ++ [.returned caller (.rx st completed)]) := by
  apply rxFrame_of_ends caller frame s
    (fun t => ∃ st completed, t.outputs = s.outputs ++
      ((if completed then [Output.dispatch t.rxKind (t.rbuf.readRange 0 t.declLen.toNat)] else [])
        ++ [Output.returned caller (.rx st completed)]))
  · intro st _; exact ⟨st, false, by simp⟩
  · intros; exact ⟨.ok, false, by simp⟩
  · intros; exact ⟨.ok, true, by simp [acceptLead]⟩
  · intros; exact ⟨.ok, false, by simp [acceptLead]⟩
  · intros; exact ⟨.ok, true, by simp [acceptCont]⟩
  · intros; exact ⟨.ok, false, by simp [acceptCont]⟩

/-! ## The reassembler does not look around -/

/-- A state with other surroundings: the fields no `RX.FRAME` reads. -/
def State.around (s : State) (x : Byte) (pending : List Request) (turns : List SinkTurn) (calls : Nat)
    (outs : List Output) : State :=
  { s with outSeqNum := x, pending := pending, sinkTurns := turns, sinkCalls := calls, outputs := outs }

/-- `RX.FRAME` reads no field of the surroundings: from a state with other surroundings it does the same to the reassembler
and sends out the same. -/
theorem rxFrame_around (caller : Caller) (frame : List Byte) (s : State) :
    ∃ new, (rxFrame caller frame s).outputs = s.outputs ++ new ∧
      ∀ x pending turns calls outs, rxFrame caller frame (s.around x pending turns calls outs) =
        (rxFrame caller frame s).around x pending turns calls (outs ++ new) := by
  obtain ⟨st, completed, h⟩ := rxFrame_outputs caller frame s
  refine ⟨_, h, fun x pending turns calls outs => ?_⟩
  have hnew : ∀ new, (rxFrame caller frame s).outputs = s.outputs ++ new →
      rxFrame caller frame (s.around x pending turns calls outs) =
        (rxFrame caller frame s).around x pending turns calls (outs ++ new) := by
    intro new
    simp only [rxFrame, leadFrame, contFrame, State.around, Config.hdrLen, Config.mtu, Config.chunk]
    split
    · intro hn
      simp_all [State.emit]
    · split
      · intro hn
        simp_all [State.emit]
      · split
        · split
          · intro hn
            simp_all [State.emit]
          · split
            · intro hn
              simp_all [State.emit]
            · split <;> intro hn <;>
                simp_all [State.emit, State.complete, State.enterPhase, State.expectAfter, State.latchLead, State.storeAt]
        · split
          · intro hn
            simp_all [State.emit, State.expectAfter]
          · split
            · intro hn
              simp_all [State.emit]
            · split <;> intro hn <;>
                simp_all [State.emit, State.complete, State.enterPhase, State.expectAfter, State.storeAt]
  exact hnew _ h

end Sys2Proof.Machine
end

