-- ==== Sys2Proof/Laws/Segmenter.lean ====
section
/-! SUPPORT. What the segmenter does: the frames it builds, one `Transmit` call, and every end of the loop of R82. -/

namespace Sys2Proof.Machine

open Sys2Proof

/-! ## The frames -/

theorem length_segBody (payload : List Byte) (k : Nat) :
    (segBody payload k).length = min 251 (payload.length - 251 * k) := by
  simp [segBody]

theorem length_segFrame (payload : List Byte) (tag : Nibble) (s0 h0 : Byte) (k : Nat) :
    (segFrame payload tag s0 h0 k).length = 4 + min 251 (payload.length - 251 * k) := by
  unfold segFrame
  split <;> simp [length_segBody, Nat.add_comm]

/-- R82: the check for `FrameTooLarge` is never taken. -/
theorem segFrame_fits (payload : List Byte) (tag : Nibble) (s0 h0 : Byte) (k : Nat) :
    ¬(Config.mtu < (segFrame payload tag s0 h0 k).length) := by
  rw [length_segFrame]
  simp only [Config.mtu]
  omega

@[simp] theorem segFrame_seq (payload : List Byte) (tag : Nibble) (s0 h0 : Byte) (k : Nat) :
    frameSeq (segFrame payload tag s0 h0 k) = h0 := by
  unfold segFrame
  split <;> simp

@[simp] theorem segFrame_kind (payload : List Byte) (tag : Nibble) (s0 h0 : Byte) (k : Nat) :
    frameKind (segFrame payload tag s0 h0 k) = tag := by
  unfold segFrame
  split <;> simp

@[simp] theorem segFrame_body (payload : List Byte) (tag : Nibble) (s0 h0 : Byte) (k : Nat) :
    frameBody (segFrame payload tag s0 h0 k) = segBody payload k := by
  unfold segFrame
  split <;> simp

theorem segFrame_lead (payload : List Byte) (tag : Nibble) (s0 h0 : Byte) :
    segFrame payload tag s0 h0 0 = leadBytes h0 tag 0 (BitVec.ofNat 16 payload.length) (segBody payload 0) := rfl

theorem segFrame_cont (payload : List Byte) (tag : Nibble) (s0 h0 : Byte) {k : Nat} (hk : k ≠ 0) :
    segFrame payload tag s0 h0 k = contBytes h0 tag 0 0x00 s0 (segBody payload k) := by
  simp [segFrame, hk]

/-! ## The sink's turns -/

/-- The turns a state still has ahead, seen after one `Transmit` call. -/
theorem State.callsAt_tail {s t : State} (h : t.sinkTurns = s.sinkTurns.tail) (j : Nat) :
    t.callsAt j = s.callsAt (j + 1) := by
  simp [State.callsAt, h]

theorem State.answer_tail {s t : State} (h : t.sinkTurns = s.sinkTurns.tail) (h' : t.sinkCalls = s.sinkCalls + 1)
    (j : Nat) : t.answer j = s.answer (j + 1) := by
  simp [State.answer, h, h', Nat.add_comm, Nat.add_left_comm]

theorem State.nextTurn_calls (s : State) : s.nextTurn.calls = s.callsAt 0 := by
  cases h : s.sinkTurns <;> simp [State.nextTurn, State.callsAt, h]

theorem State.nextTurn_reply (s : State) : s.nextTurn.reply = s.answer 0 := by
  cases h : s.sinkTurns <;> simp [State.nextTurn, State.answer, h]

/-- A list of calls the sink's code may make: nothing but `RX.FRAME`. -/
def OnlyFrames (calls : List Request) : Prop := ∀ r ∈ calls, r.inboundFrame ≠ none

theorem onlyFrames_nil : OnlyFrames [] := by simp [OnlyFrames]

/-! ## Frames received one after the other -/

@[simp] theorem receiveFrom_nil (caller : Caller) (s : State) : receiveFrom caller [] s = s := rfl

@[simp] theorem receiveFrom_cons (caller : Caller) (frame : List Byte) (rest : List (List Byte)) (s : State) :
    receiveFrom caller (frame :: rest) s = receiveFrom caller rest (rxFrame caller frame s) := rfl

theorem receiveFrom_append (caller : Caller) (xs ys : List (List Byte)) (s : State) :
    receiveFrom caller (xs ++ ys) s = receiveFrom caller ys (receiveFrom caller xs s) := by
  simp [receiveFrom, List.foldl_append]

theorem receiveFrom_keeps (caller : Caller) (frames : List (List Byte)) (s : State) :
    (receiveFrom caller frames s).outSeqNum = s.outSeqNum ∧ (receiveFrom caller frames s).params = s.params ∧
    (receiveFrom caller frames s).pending = s.pending ∧ (receiveFrom caller frames s).sinkTurns = s.sinkTurns ∧
    (receiveFrom caller frames s).sinkCalls = s.sinkCalls := by
  induction frames generalizing s with
  | nil => simp
  | cons frame rest ih => simpa using ih (rxFrame caller frame s)

/-- `receiveAll` is `receiveFrom` for the driver. -/
theorem receiveAll_eq (frames : List (List Byte)) (s : State) :
    receiveAll frames s = .next (receiveFrom .driver frames s) := by
  induction frames generalizing s with
  | nil => rfl
  | cons frame rest ih => exact ih (rxFrame .driver frame s)

theorem framesIn_append (xs ys : List Output) : framesIn (xs ++ ys) = framesIn xs ++ framesIn ys := by
  simp [framesIn]

/-- What one `RX.FRAME` sends out holds no `Transmit` and results to its caller only. -/
theorem rxFrame_own (caller : Caller) (frame : List Byte) (s : State) :
    ∃ own, (rxFrame caller frame s).outputs = s.outputs ++ own ∧ framesIn own = [] ∧
      ∀ c r, Output.returned c r ∈ own → c = caller := by
  obtain ⟨st, completed, h⟩ := rxFrame_outputs caller frame s
  refine ⟨_, h, ?_, ?_⟩
  · cases completed <;> rfl
  · intro c r hc
    cases completed <;> simp_all

/-- Frames received send out only results and dispatches: no `Transmit`, and no result to another caller. -/
theorem receiveFrom_outputs (caller : Caller) (frames : List (List Byte)) (s : State) :
    ∃ new, (receiveFrom caller frames s).outputs = s.outputs ++ new ∧ framesIn new = [] ∧
      ∀ c r, Output.returned c r ∈ new → c = caller := by
  induction frames generalizing s with
  | nil => exact ⟨[], by simp, rfl, by simp⟩
  | cons frame rest ih =>
    obtain ⟨own, h, hf, hr⟩ := rxFrame_own caller frame s
    obtain ⟨new, h', hf', hr'⟩ := ih (rxFrame caller frame s)
    refine ⟨own ++ new, by rw [receiveFrom_cons, h', h, List.append_assoc], by rw [framesIn_append, hf, hf']; rfl, ?_⟩
    intro c r hc
    rcases List.mem_append.mp hc with hc | hc
    · exact hr c r hc
    · exact hr' c r hc

theorem runNested_frames {calls : List Request} (h : OnlyFrames calls) (s : State) :
    runNested calls s = some (receiveFrom .sink (calls.filterMap Request.inboundFrame) s) := by
  induction calls generalizing s with
  | nil => rfl
  | cons r rest ih =>
    have hr := h r (by simp)
    obtain ⟨frame, hf⟩ := Option.ne_none_iff_exists'.mp hr
    simp only [runNested, hf, List.filterMap_cons_some hf, receiveFrom_cons]
    exact ih (fun q hq => h q (by simp [hq])) _

theorem runNested_overlap {calls : List Request} (h : ¬OnlyFrames calls) (s : State) : runNested calls s = none := by
  induction calls generalizing s with
  | nil => exact absurd onlyFrames_nil h
  | cons r rest ih =>
    cases hr : r.inboundFrame with
    | none => simp [runNested, hr]
    | some frame =>
      simp only [runNested, hr]
      refine ih (fun hrest => h fun q hq => ?_) _
      rcases List.mem_cons.mp hq with rfl | hq
      · simp [hr]
      · exact hrest q hq

/-! ## One `Transmit` call -/

/-- The state when the sink answers the `Transmit` call of a frame, the frames its code delivered having been received. -/
def transmitted (frame : List Byte) (s : State) : State :=
  receiveFrom .sink ((s.callsAt 0).filterMap Request.inboundFrame) (s.takeTurn.emit (.transmit frame))

/-- The three ends of a `Transmit` call. -/
theorem transmit_answered {s : State} {frame : List Byte} {answer : Config.SinkAnswer} (h : OnlyFrames (s.callsAt 0))
    (ha : s.answer 0 = some answer) : transmit frame s = .next (answer, transmitted frame s) := by
  unfold transmit
  rw [State.nextTurn_calls, State.nextTurn_reply, runNested_frames h, ha]
  rfl

theorem transmit_silent {s : State} {frame : List Byte} (h : OnlyFrames (s.callsAt 0)) (ha : s.answer 0 = none) :
    transmit frame s = .fault .sinkNeverReturns := by
  unfold transmit
  rw [State.nextTurn_calls, State.nextTurn_reply, runNested_frames h, ha]

theorem transmit_overlap {s : State} {frame : List Byte} (h : ¬OnlyFrames (s.callsAt 0)) :
    transmit frame s = .refused .overlappingOperation := by
  unfold transmit
  rw [State.nextTurn_calls, runNested_overlap h]

theorem transmitted_keeps (frame : List Byte) (s : State) :
    (transmitted frame s).outSeqNum = s.outSeqNum ∧ (transmitted frame s).params = s.params ∧
    (transmitted frame s).pending = s.pending ∧ (transmitted frame s).sinkTurns = s.sinkTurns.tail ∧
    (transmitted frame s).sinkCalls = s.sinkCalls + 1 := by
  unfold transmitted
  simpa using receiveFrom_keeps .sink ((s.callsAt 0).filterMap Request.inboundFrame) (s.takeTurn.emit (.transmit frame))

/-! ## The loop of R82 -/

/-- The state after `m` frames from index `k` on have been handed over and answered. -/
def handedOver (payload : List Byte) (tag : Nibble) (s0 : Byte) : Nat → Nat → State → State
  | 0, _, s => s
  | m + 1, k, s =>
    handedOver payload tag s0 m (k + 1) (transmitted (segFrame payload tag s0 s.outSeqNum k) s.countFrame)

section
variable {payload : List Byte} {tag : Nibble} {s0 : Byte}

/-- The state after one frame, as the rest of the loop sees it. -/
theorem handedOver_one_keeps (k : Nat) (s : State) :
    (transmitted (segFrame payload tag s0 s.outSeqNum k) s.countFrame).outSeqNum = s.outSeqNum + 1 ∧
    (transmitted (segFrame payload tag s0 s.outSeqNum k) s.countFrame).params = s.params ∧
    (transmitted (segFrame payload tag s0 s.outSeqNum k) s.countFrame).pending = s.pending ∧
    (transmitted (segFrame payload tag s0 s.outSeqNum k) s.countFrame).sinkTurns = s.sinkTurns.tail ∧
    (transmitted (segFrame payload tag s0 s.outSeqNum k) s.countFrame).sinkCalls = s.sinkCalls + 1 :=
  transmitted_keeps _ s.countFrame

theorem State.callsAt_countFrame (s : State) (j : Nat) : s.countFrame.callsAt j = s.callsAt j := rfl
theorem State.answer_countFrame (s : State) (j : Nat) : s.countFrame.answer j = s.answer j := rfl

/-- One frame with others behind it, answered `Ok`: the loop goes on. -/
theorem sendFrames_ok {n k : Nat} {s : State} (hn : n ≠ 0) (h : OnlyFrames (s.callsAt 0)) (ha : s.answer 0 = some .ok) :
    sendFrames payload tag s0 (n + 1) k s =
      sendFrames payload tag s0 n (k + 1)
        (transmitted (segFrame payload tag s0 s.outSeqNum k) s.countFrame) := by
  rw [sendFrames]
  simp only [segFrame_fits, if_false]
  rw [transmit_answered (s := s.countFrame) h ha]
  simp [hn]

/-- The last frame, answered: the answer is the status. -/
theorem sendFrames_last {k : Nat} {s : State} {answer : Config.SinkAnswer} (h : OnlyFrames (s.callsAt 0))
    (ha : s.answer 0 = some answer) :
    sendFrames payload tag s0 1 k s =
      .next ((transmitted (segFrame payload tag s0 s.outSeqNum k) s.countFrame).endWith (answerStatus k answer)) := by
  rw [sendFrames]
  simp only [segFrame_fits, if_false]
  rw [transmit_answered (s := s.countFrame) h ha]
  simp

/-- A frame the sink refuses: the operation ends there. -/
theorem sendFrames_sinkError {n k : Nat} {s : State} (h : OnlyFrames (s.callsAt 0))
    (ha : s.answer 0 = some .sinkError) :
    sendFrames payload tag s0 (n + 1) k s =
      .next ((transmitted (segFrame payload tag s0 s.outSeqNum k) s.countFrame).endWith (.sinkError k)) := by
  rw [sendFrames]
  simp only [segFrame_fits, if_false]
  rw [transmit_answered (s := s.countFrame) h ha]
  by_cases hn : n = 0 <;> simp [hn, answerStatus]

theorem sendFrames_silent {n k : Nat} {s : State} (h : OnlyFrames (s.callsAt 0)) (ha : s.answer 0 = none) :
    sendFrames payload tag s0 (n + 1) k s = .fault .sinkNeverReturns := by
  rw [sendFrames]
  simp only [segFrame_fits, if_false]
  rw [transmit_silent (s := s.countFrame) h ha]

theorem sendFrames_overlap {n k : Nat} {s : State} (h : ¬OnlyFrames (s.callsAt 0)) :
    sendFrames payload tag s0 (n + 1) k s = .refused .overlappingOperation := by
  rw [sendFrames]
  simp only [segFrame_fits, if_false]
  rw [transmit_overlap (s := s.countFrame) h]

/-- The first `m` coming turns call nothing but `RX.FRAME` and answer `Ok`. -/
def ServesOk (s : State) (m : Nat) : Prop := ∀ j < m, OnlyFrames (s.callsAt j) ∧ s.answer j = some .ok

theorem ServesOk.rest {s : State} {m k : Nat} (h : ServesOk s (m + 1)) :
    ServesOk (transmitted (segFrame payload tag s0 s.outSeqNum k) s.countFrame) m := by
  obtain ⟨_, _, _, ht, hc⟩ := handedOver_one_keeps (payload := payload) (tag := tag) (s0 := s0) k s
  intro j hj
  rw [State.callsAt_tail ht, State.answer_tail ht hc]
  exact h (j + 1) (by omega)

/-- After `m` frames answered `Ok`, with more behind them, the loop is where it would start from the frame after. -/
theorem sendFrames_resume {m n k : Nat} {s : State} (hn : n ≠ 0) (h : ServesOk s m) :
    sendFrames payload tag s0 (m + n) k s =
      sendFrames payload tag s0 n (k + m) (handedOver payload tag s0 m k s) := by
  induction m generalizing k s with
  | zero => simp [handedOver]
  | succ m ih =>
    obtain ⟨hc, ha⟩ := h 0 (by omega)
    rw [show m + 1 + n = (m + n) + 1 by omega, sendFrames_ok (by omega) hc ha, ih h.rest, handedOver,
      show k + 1 + m = k + (m + 1) by omega]

/-- The turns ahead after `m` frames. -/
theorem handedOver_keeps (m k : Nat) (s : State) :
    (handedOver payload tag s0 m k s).outSeqNum = s.outSeqNum + BitVec.ofNat 8 m ∧
    (handedOver payload tag s0 m k s).params = s.params ∧
    (handedOver payload tag s0 m k s).pending = s.pending ∧
    (handedOver payload tag s0 m k s).sinkTurns = s.sinkTurns.drop m ∧
    (handedOver payload tag s0 m k s).sinkCalls = s.sinkCalls + m := by
  induction m generalizing k s with
  | zero => simp [handedOver]
  | succ m ih =>
    obtain ⟨h1, h2, h3, h4, h5⟩ := ih (k + 1) (transmitted (segFrame payload tag s0 s.outSeqNum k) s.countFrame)
    obtain ⟨g1, g2, g3, g4, g5⟩ := handedOver_one_keeps (payload := payload) (tag := tag) (s0 := s0) k s
    refine ⟨?_, h2.trans g2, h3.trans g3, ?_, ?_⟩
    · rw [handedOver, h1, g1, BitVec.add_assoc, BitVec.ofNat_add, BitVec.add_comm 1]
      rfl
    · rw [handedOver, h4, g4, List.drop_tail]
    · rw [handedOver, h5, g5]
      omega

theorem handedOver_callsAt (m k j : Nat) (s : State) :
    (handedOver payload tag s0 m k s).callsAt j = s.callsAt (m + j) := by
  simp [State.callsAt, (handedOver_keeps m k s).2.2.2.1]

theorem handedOver_answer (m k j : Nat) (s : State) :
    (handedOver payload tag s0 m k s).answer j = s.answer (m + j) := by
  simp [State.answer, (handedOver_keeps m k s).2.2.2.1, (handedOver_keeps m k s).2.2.2.2, Nat.add_assoc]

/-- One more frame at the end. -/
theorem handedOver_succ (m k : Nat) (s : State) :
    handedOver payload tag s0 (m + 1) k s =
      transmitted (segFrame payload tag s0 (handedOver payload tag s0 m k s).outSeqNum (k + m))
        (handedOver payload tag s0 m k s).countFrame := by
  induction m generalizing k s with
  | zero => simp [handedOver]
  | succ m ih =>
    rw [handedOver, ih, handedOver, show k + 1 + m = k + (m + 1) by omega]

/-! ## Every end of the loop -/

/-- Every answer `Ok`. -/
theorem sendFrames_allOk {n k : Nat} {s : State} (hn : n ≠ 0) (h : ServesOk s n) :
    sendFrames payload tag s0 n k s = .next ((handedOver payload tag s0 n k s).endWith .ok) := by
  obtain ⟨m, rfl⟩ := Nat.exists_eq_succ_of_ne_zero hn
  obtain ⟨hc, ha⟩ := h m (by omega)
  rw [show m.succ = m + 1 from rfl, sendFrames_resume (by omega) (fun j hj => h j (by omega)), handedOver_succ]
  rw [sendFrames_last (by rw [handedOver_callsAt]; exact hc) (by rw [handedOver_answer]; exact ha)]
  rfl

/-- The sink refuses the frame after the first `m`. -/
theorem sendFrames_refusedAt {n k m : Nat} {s : State} (hm : m < n) (h : ServesOk s m)
    (hc : OnlyFrames (s.callsAt m)) (ha : s.answer m = some .sinkError) :
    sendFrames payload tag s0 n k s =
      .next ((handedOver payload tag s0 (m + 1) k s).endWith (.sinkError (k + m))) := by
  obtain ⟨r, rfl⟩ : ∃ r, n = m + (r + 1) := ⟨n - m - 1, by omega⟩
  rw [sendFrames_resume (by omega) h, handedOver_succ,
    sendFrames_sinkError (by rw [handedOver_callsAt]; exact hc) (by rw [handedOver_answer]; exact ha)]

theorem sendFrames_silentAt {n k m : Nat} {s : State} (hm : m < n) (h : ServesOk s m)
    (hc : OnlyFrames (s.callsAt m)) (ha : s.answer m = none) :
    sendFrames payload tag s0 n k s = .fault .sinkNeverReturns := by
  obtain ⟨r, rfl⟩ : ∃ r, n = m + (r + 1) := ⟨n - m - 1, by omega⟩
  rw [sendFrames_resume (by omega) h,
    sendFrames_silent (by rw [handedOver_callsAt]; exact hc) (by rw [handedOver_answer]; exact ha)]

theorem sendFrames_overlapAt {n k m : Nat} {s : State} (hm : m < n) (h : ServesOk s m)
    (hc : ¬OnlyFrames (s.callsAt m)) :
    sendFrames payload tag s0 n k s = .refused .overlappingOperation := by
  obtain ⟨r, rfl⟩ : ∃ r, n = m + (r + 1) := ⟨n - m - 1, by omega⟩
  rw [sendFrames_resume (by omega) h, sendFrames_overlap (by rw [handedOver_callsAt]; exact hc)]

/-- The coming `n` turns all serve, or there is a first one that does not. -/
theorem servesOk_or_first (s : State) (n : Nat) :
    ServesOk s n ∨ ∃ m < n, ServesOk s m ∧ ¬(OnlyFrames (s.callsAt m) ∧ s.answer m = some .ok) := by
  induction n with
  | zero => exact .inl (by simp [ServesOk])
  | succ n ih =>
    rcases ih with h | ⟨m, hm, h, h'⟩
    · by_cases hn : OnlyFrames (s.callsAt n) ∧ s.answer n = some .ok
      · refine .inl fun j hj => ?_
        rcases Nat.lt_succ_iff_lt_or_eq.mp hj with hj | rfl
        · exact h j hj
        · exact hn
      · exact .inr ⟨n, by omega, h, hn⟩
    · exact .inr ⟨m, by omega, h, h'⟩

/-- What a loop that ends in a next state has done: handed over `m` frames, all but the last answered `Ok`, and returned
`Ok` or the `SinkError` of the last. -/
theorem sendFrames_next {n k : Nat} {s t : State} (hn : n ≠ 0) (ht : sendFrames payload tag s0 n k s = .next t) :
    ∃ m st, m ≤ n ∧ m ≠ 0 ∧ ServesOk s (m - 1) ∧ OnlyFrames (s.callsAt (m - 1)) ∧
      t = (handedOver payload tag s0 m k s).endWith st ∧
      ((st = .ok ∧ m = n ∧ ServesOk s n) ∨ (st = .sinkError (k + (m - 1)) ∧ s.answer (m - 1) = some .sinkError)) := by
  rcases servesOk_or_first s n with h | ⟨m, hm, h, h'⟩
  · rw [sendFrames_allOk hn h] at ht
    injection ht with ht
    exact ⟨n, .ok, Nat.le_refl n, hn, fun j hj => h j (by omega), (h (n - 1) (by omega)).1, ht.symm,
      .inl ⟨rfl, rfl, h⟩⟩
  · by_cases hc : OnlyFrames (s.callsAt m)
    · cases ha : s.answer m with
      | none => rw [sendFrames_silentAt hm h hc ha] at ht; cases ht
      | some a =>
        cases a with
        | ok => exact absurd ⟨hc, ha⟩ h'
        | sinkError =>
          rw [sendFrames_refusedAt hm h hc ha] at ht
          injection ht with ht
          exact ⟨m + 1, .sinkError (k + m), hm, by omega, h, hc, ht.symm, .inr ⟨rfl, ha⟩⟩
    · rw [sendFrames_overlapAt hm h hc] at ht
      cases ht

end

/-! ## The two operations -/

theorem frameCount_ne_zero (len : Nat) : frameCount len ≠ 0 := by
  unfold frameCount
  simp only [Config.chunk]
  split
  · omega
  · have : 1 ≤ len / 251 := by omega
    omega

theorem segmentAndSend_tooLarge {payload : List Byte} {tag : Nibble} {s : State}
    (h : s.params.segMaxLen < payload.length) :
    segmentAndSend payload tag s = .next (s.emit (.returned .driver (.status (.payloadTooLarge payload.length)))) := by
  simp [segmentAndSend, h]

theorem segmentAndSend_sends {payload : List Byte} {tag : Nibble} {s : State}
    (h : payload.length ≤ s.params.segMaxLen) :
    segmentAndSend payload tag s = sendFrames payload tag s.outSeqNum (frameCount payload.length) 0 s := by
  have h' : ¬(s.params.segMaxLen < payload.length) := by omega
  simp [segmentAndSend, h']

theorem exec_segments {s : State} {i : Instr} {payload : List Byte} {tag : Nibble} (h : Segments s i payload tag) :
    exec i s = segmentAndSend payload tag s := by
  rcases h with ⟨rfl, rfl⟩ | ⟨rfl, rfl⟩ <;> rfl

end Sys2Proof.Machine
end

