-- ==== Sys2Proof/Laws/Handover.lean ====
section
/-! SUPPORT. What the frames handed over come to: they are the frames of R81's table, they leave the outputs and the
reassembler as described here, and every finished `SEG.*` operation is one of the two forms of `exec_segments_next`. -/

namespace Sys2Proof.Machine

open Sys2Proof

/-! ## The frames built are the frames of R81 -/

theorem frameCount_eq (len : Nat) : frameCount len = packetFrames len := by
  unfold frameCount packetFrames
  simp only [Config.chunk]
  split <;> (try split) <;> omega

theorem leadFlagByte (tag : Nibble) : (0#3 ++ (0#1 ++ tag) : BitVec 8) = tag.setWidth 8 := by revert tag; decide

theorem contFlagByte (tag : Nibble) : (0#3 ++ (1#1 ++ tag) : BitVec 8) = tag.setWidth 8 ||| 0x10 := by
  revert tag; decide

theorem lengthLowByte (len : Nat) : (BitVec.ofNat 16 len).extractLsb' 0 8 = BitVec.ofNat 8 (len % 256) := by
  apply BitVec.eq_of_toNat_eq
  simp [BitVec.extractLsb'_toNat]

theorem lengthHighByte (len : Nat) : (BitVec.ofNat 16 len).extractLsb' 8 8 = BitVec.ofNat 8 (len / 256) := by
  apply BitVec.eq_of_toNat_eq
  simp [BitVec.extractLsb'_toNat, Nat.shiftRight_eq_div_pow]
  omega

theorem segBody_eq (payload : List Byte) (k : Nat) :
    segBody payload k = (payload.take (min (251 * k + 251) payload.length)).drop (251 * k) := by
  unfold segBody
  rw [List.drop_take]
  apply List.ext_getElem
  · simp
    omega
  · intro i h1 h2
    simp

theorem segFrame_eq (payload : List Byte) (tag : Nibble) (s0 : Byte) (k : Nat) :
    segFrame payload tag s0 (s0 + BitVec.ofNat 8 k) k = packetFrame payload tag s0 k := by
  unfold segFrame packetFrame leadBytes contBytes
  rw [← segBody_eq]
  by_cases hk : k = 0
  · subst hk
    simp only [if_true, List.cons_append, List.nil_append]
    rw [lengthLowByte, lengthHighByte]
    congr 2
    exact leadFlagByte tag
  · simp only [hk, if_false, List.cons_append, List.nil_append]
    congr 2
    exact contFlagByte tag

theorem packetFrame_body (payload : List Byte) (tag : Nibble) (s0 : Byte) (k : Nat) :
    frameBody (packetFrame payload tag s0 k) = segBody payload k := by
  rw [← segFrame_eq, segFrame_body]

theorem length_packet (payload : List Byte) (tag : Nibble) (s0 : Byte) :
    (packet payload tag s0).length = packetFrames payload.length := by
  simp [packet]

theorem packet_take (payload : List Byte) (tag : Nibble) (s0 : Byte) {m : Nat} (hm : m ≤ packetFrames payload.length) :
    (packet payload tag s0).take m =
      (List.range m).map (fun j => segFrame payload tag s0 (s0 + BitVec.ofNat 8 j) (0 + j)) := by
  unfold packet
  rw [← List.map_take, List.take_range, Nat.min_eq_left hm]
  apply List.map_congr_left
  intro j _
  rw [Nat.zero_add, segFrame_eq]

/-! ## The outputs of the frames handed over -/

/-- What handing over `m` frames sends out: those frames, nothing returned to the driver, and nothing else at all if the
sink makes no call. -/
theorem handedOver_outputs {payload : List Byte} {tag : Nibble} {s0 : Byte} (m k : Nat) (s : State) :
    ∃ new, (handedOver payload tag s0 m k s).outputs = s.outputs ++ new ∧
      framesIn new = (List.range m).map (fun j => segFrame payload tag s0 (s.outSeqNum + BitVec.ofNat 8 j) (k + j)) ∧
      (∀ r, Output.returned .driver r ∉ new) ∧
      ((∀ j < m, s.callsAt j = []) →
        new = ((List.range m).map
          (fun j => segFrame payload tag s0 (s.outSeqNum + BitVec.ofNat 8 j) (k + j))).map .transmit) := by
  induction m with
  | zero => exact ⟨[], by simp [handedOver], rfl, by simp, by simp⟩
  | succ m ih =>
    obtain ⟨new, h1, h2, h3, h4⟩ := ih
    rw [handedOver_succ]
    have hk := handedOver_keeps (payload := payload) (tag := tag) (s0 := s0) m k s
    generalize hu : handedOver payload tag s0 m k s = u at *
    have hc : u.callsAt 0 = s.callsAt m := by
      rw [← hu, handedOver_callsAt]
      rfl
    obtain ⟨own, g1, g2, g3⟩ := receiveFrom_outputs .sink ((u.callsAt 0).filterMap Request.inboundFrame)
      (u.countFrame.takeTurn.emit (.transmit (segFrame payload tag s0 u.outSeqNum (k + m))))
    refine ⟨new ++ [.transmit (segFrame payload tag s0 u.outSeqNum (k + m))] ++ own, ?_, ?_, ?_, ?_⟩
    · unfold transmitted
      rw [State.callsAt_countFrame, g1]
      simp [h1]
    · simp only [framesIn_append, h2, g2, List.range_succ, List.map_append, hk.1]
      simp [framesIn, Output.frame?]
    · intro r hr
      simp at hr
      rcases hr with hr | hr
      · exact h3 r hr
      · exact absurd (g3 _ _ hr) (by simp)
    · intro hq
      rw [hc, hq m (by omega)] at g1
      have hown : own = [] := by simpa using g1
      subst hown
      rw [h4 (fun j hj => hq j (by omega)), hk.1]
      simp [List.range_succ]

/-! ## The reassembler while frames are handed over -/

theorem receiveFrom_around (caller : Caller) (frames : List (List Byte)) (s : State) :
    ∃ new, (receiveFrom caller frames s).outputs = s.outputs ++ new ∧
      ∀ x pending turns calls outs, receiveFrom caller frames (s.around x pending turns calls outs) =
        (receiveFrom caller frames s).around x pending turns calls (outs ++ new) := by
  induction frames generalizing s with
  | nil => exact ⟨[], by simp, by simp⟩
  | cons frame rest ih =>
    obtain ⟨n1, h1, h2⟩ := rxFrame_around caller frame s
    obtain ⟨n2, h3, h4⟩ := ih (rxFrame caller frame s)
    exact ⟨n1 ++ n2, by simp [h3, h1], by intros; simp [h2, h4]⟩

theorem nestedFrames_succ (s : State) (m : Nat) :
    s.nestedFrames (m + 1) = s.nestedFrames m ++ (s.callsAt m).filterMap Request.inboundFrame := by
  simp [State.nestedFrames, List.range_succ]

theorem nestedFrames_quiet {s : State} {m : Nat} (h : ∀ j < m, s.callsAt j = []) : s.nestedFrames m = [] := by
  simp [State.nestedFrames]
  intro j hj
  simp [h j hj]

/-- After handing over `m` frames the reassembler is as if it had received the nested frames alone (R51, R153). -/
theorem handedOver_around {payload : List Byte} {tag : Nibble} {s0 : Byte} (m k : Nat) (s : State) :
    ∃ x turns calls outs, handedOver payload tag s0 m k s =
      (receiveFrom .sink (s.nestedFrames m) s).around x s.pending turns calls outs := by
  induction m with
  | zero => exact ⟨_, _, _, _, rfl⟩
  | succ m ih =>
    obtain ⟨x, turns, calls, outs, h⟩ := ih
    rw [handedOver_succ, nestedFrames_succ, receiveFrom_append]
    unfold transmitted
    rw [State.callsAt_countFrame, handedOver_callsAt, h]
    generalize receiveFrom .sink (s.nestedFrames m) s = v
    obtain ⟨new, _, h2⟩ := receiveFrom_around .sink ((s.callsAt (m + 0)).filterMap Request.inboundFrame) v
    have step_around : ∀ o, ((v.around x s.pending turns calls outs).countFrame.takeTurn.emit o) =
        v.around (x + 1) s.pending turns.tail (calls + 1) (outs ++ [o]) := fun _ => rfl
    rw [step_around, h2]
    exact ⟨_, _, _, _, rfl⟩

/-- The trace of handing over `m` frames, exactly: each frame, and behind it what the nested frames of its turn send out. -/
theorem handedOver_trace {payload : List Byte} {tag : Nibble} {s0 : Byte} (m k : Nat) (s : State) :
    (handedOver payload tag s0 m k s).outputs = s.outputs ++ (List.range m).flatMap (fun j =>
      .transmit (segFrame payload tag s0 (s.outSeqNum + BitVec.ofNat 8 j) (k + j)) :: s.nestedOutputs j) := by
  induction m with
  | zero => simp [handedOver]
  | succ m ih =>
    obtain ⟨x, turns, calls, outs, h⟩ := handedOver_around (payload := payload) (tag := tag) (s0 := s0) m k s
    have hseq := (handedOver_keeps (payload := payload) (tag := tag) (s0 := s0) m k s).1
    have hnested : s.nestedOutputs m = newOutputs (receiveFrom .sink (s.nestedFrames m) s)
        (receiveFrom .sink ((s.callsAt m).filterMap Request.inboundFrame) (receiveFrom .sink (s.nestedFrames m) s)) := by
      rw [State.nestedOutputs, nestedFrames_succ, receiveFrom_append]
    rw [handedOver_succ, transmitted, State.callsAt_countFrame, handedOver_callsAt, Nat.add_zero, hseq,
      List.range_succ, List.flatMap_append, List.flatMap_singleton, hnested]
    rw [h] at ih ⊢
    generalize receiveFrom .sink (s.nestedFrames m) s = v at ih ⊢
    obtain ⟨new, h1, h2⟩ := receiveFrom_around .sink ((s.callsAt m).filterMap Request.inboundFrame) v
    have step_around : ∀ o, ((v.around x s.pending turns calls outs).countFrame.takeTurn.emit o) =
        v.around (x + 1) s.pending turns.tail (calls + 1) (outs ++ [o]) := fun _ => rfl
    have houts : outs = _ := ih
    rw [step_around, h2, newOutputs, h1, List.drop_left]
    simp [State.around, houts]

/-- The whole state after handing over `m` frames of a packet to a sink that makes no call. -/
theorem handedOver_quiet {payload : List Byte} {tag : Nibble} {m : Nat} {s : State}
    (hm : m ≤ packetFrames payload.length) (h : ∀ j < m, s.callsAt j = []) :
    handedOver payload tag s.outSeqNum m 0 s = { s with
      outSeqNum := s.outSeqNum + BitVec.ofNat 8 m
      sinkTurns := s.sinkTurns.drop m
      sinkCalls := s.sinkCalls + m
      outputs := s.outputs ++ ((packet payload tag s.outSeqNum).take m).map .transmit } := by
  obtain ⟨x, turns, calls, outs, ha⟩ := handedOver_around (payload := payload) (tag := tag) (s0 := s.outSeqNum) m 0 s
  obtain ⟨h1, h2, h3, h4, h5⟩ := handedOver_keeps (payload := payload) (tag := tag) (s0 := s.outSeqNum) m 0 s
  obtain ⟨new, g1, g2, g3, g4⟩ := handedOver_outputs (payload := payload) (tag := tag) (s0 := s.outSeqNum) m 0 s
  rw [nestedFrames_quiet h] at ha
  rw [g4 h, ← packet_take _ _ _ hm] at g1
  rw [ha] at h1 h4 h5 g1 ⊢
  simp only [State.around, receiveFrom_nil] at *
  subst h1 h4 h5 g1
  rfl

/-! ## Every finished `SEG.*` operation -/

/-- The inversion of `SEG.REPORT` and `SEG.SCHEMA`: the payload was too large and nothing was sent; or m frames went out,
every one before the last was answered `Ok`, and the status is the last answer's. -/
theorem exec_segments_next {s t : State} {i : Instr} {payload : List Byte} {tag : Nibble}
    (hs : Segments s i payload tag) (h : exec i s = .next t) :
    (s.params.segMaxLen < payload.length ∧
      t = s.emit (.returned .driver (.status (.payloadTooLarge payload.length)))) ∨
    (payload.length ≤ s.params.segMaxLen ∧ ∃ m st, m ≤ packetFrames payload.length ∧ m ≠ 0 ∧ ServesOk s (m - 1) ∧
      OnlyFrames (s.callsAt (m - 1)) ∧ t = (handedOver payload tag s.outSeqNum m 0 s).endWith st ∧
      ((st = .ok ∧ m = packetFrames payload.length ∧ ServesOk s m) ∨
        (st = .sinkError (m - 1) ∧ s.answer (m - 1) = some .sinkError))) := by
  rw [exec_segments hs] at h
  by_cases hl : s.params.segMaxLen < payload.length
  · rw [segmentAndSend_tooLarge hl] at h
    cases h
    exact .inl ⟨hl, rfl⟩
  · rw [segmentAndSend_sends (by omega)] at h
    obtain ⟨m, st, h1, h2, h3, h4, h5, h6⟩ := sendFrames_next (frameCount_ne_zero _) h
    rw [frameCount_eq] at h1 h6
    refine .inr ⟨by omega, m, st, h1, h2, h3, h4, h5, ?_⟩
    rcases h6 with ⟨a, b, c⟩ | ⟨a, b⟩
    · exact .inl ⟨a, b, b ▸ c⟩
    · exact .inr ⟨by rw [a, Nat.zero_add], b⟩

end Sys2Proof.Machine
end

