-- ==== Sys2Proof/Laws/PerInstr.lean ====
section
/-! SUPPORT. A fact about every instruction as syntax, one lemma for each constructor: where its encoding goes, and how many
bytes it has (R60, R69, R70). -/

namespace Sys2Proof.Laws.EncodedShape

/-- A well-formed command is a selector followed by at most 65535 payload bytes or by a frame operand; a well-formed frame
form is a frame of 4 to 255 bytes on the byte-source. -/
def Statement (i : Instr) : Prop :=
  i.wellFormed = true →
    match i with
    | .segReport payload => (encode i).port = .command ∧ (encode i).bytes.length = payload.length + 1 ∧
        payload.length ≤ 65535
    | .segSchema payload => (encode i).port = .command ∧ (encode i).bytes.length = payload.length + 1 ∧
        payload.length ≤ 65535
    | .rxFrame frame => (encode i).port = .command ∧ (encode i).bytes.length = frame.length + 1
    | .reset => (encode i).port = .command ∧ (encode i).bytes.length = 1
    | .frameLead _ _ _ _ _ => (encode i).port = .source ∧ 4 ≤ (encode i).bytes.length ∧ (encode i).bytes.length ≤ 255
    | .frameCont _ _ _ _ _ _ =>
      (encode i).port = .source ∧ 4 ≤ (encode i).bytes.length ∧ (encode i).bytes.length ≤ 255

theorem segReport (payload : List Byte) : Statement (.segReport payload) := by
  intro h
  simp only [Instr.wellFormed, decide_eq_true_eq] at h
  exact ⟨rfl, rfl, h⟩

theorem segSchema (payload : List Byte) : Statement (.segSchema payload) := by
  intro h
  simp only [Instr.wellFormed, decide_eq_true_eq] at h
  exact ⟨rfl, rfl, h⟩

theorem rxFrame (frame : List Byte) : Statement (.rxFrame frame) := fun _ => ⟨rfl, rfl⟩

theorem reset : Statement .reset := fun _ => ⟨rfl, rfl⟩

theorem frameLead (seq : Byte) (kindTag : Nibble) (reserved : BitVec 3) (length : Half) (body : List Byte) :
    Statement (.frameLead seq kindTag reserved length body) := by
  intro h
  simp only [Instr.wellFormed, decide_eq_true_eq, Config.chunk] at h
  refine ⟨rfl, ?_, ?_⟩ <;> simp only [encode, length_leadBytes] <;> omega

theorem frameCont (seq : Byte) (kindTag : Nibble) (reserved : BitVec 3) (unused leadRef : Byte) (body : List Byte) :
    Statement (.frameCont seq kindTag reserved unused leadRef body) := by
  intro h
  simp only [Instr.wellFormed, decide_eq_true_eq, Config.chunk] at h
  refine ⟨rfl, ?_, ?_⟩ <;> simp only [encode, length_contBytes] <;> omega

end Sys2Proof.Laws.EncodedShape
end

