-- ==== Sys2Proof/Laws/Step.lean ====
section
/-! SUPPORT. What a step does: the cases of the next request. -/

namespace Sys2Proof.Machine

open Sys2Proof

section
variable {s : State} {r : Request} {rest : List Request}

theorem State.dropRequest_eq (h : s.pending = r :: rest) : s.dropRequest = { s with pending := rest } := by
  simp [State.dropRequest, h]

theorem step_idle (h : s.pending = []) : step s = .next s := by
  simp [step, State.fetch, h]

theorem step_instr {i : Instr} (h : s.pending = r :: rest) (hd : decode r = .ok i) :
    step s = exec i s.dropRequest := by
  simp [step, State.fetch, h, hd]

theorem step_reject {e : Reject} (h : s.pending = r :: rest) (hd : decode r = .error e) :
    step s = rejectRequest e s.dropRequest := by
  simp [step, State.fetch, h, hd]

end

/-- A step that answers a next state held its state, ran an instruction, or turned away a request with a status. -/
theorem step_cases {s t : State} (h : step s = .next t) :
    (s.pending = [] ∧ t = s) ∨
    (∃ i, exec i s.dropRequest = .next t) ∨
    (∃ r, t = s.dropRequest.emit (.returned .driver r)) := by
  cases hp : s.pending with
  | nil =>
    rw [step_idle hp] at h
    injection h with h
    exact .inl ⟨rfl, h.symm⟩
  | cons r rest =>
    cases hd : decode r with
    | ok i => exact .inr (.inl ⟨i, (step_instr hp hd).symm.trans h⟩)
    | error e =>
      rw [step_reject hp hd] at h
      cases e with
      | reservedSelector op => injection h with h; exact .inr (.inr ⟨_, h.symm⟩)
      | frameLength n => injection h with h; exact .inr (.inr ⟨_, h.symm⟩)
      | noSelector => cases h
      | resetOperand n => cases h
      | payloadLength n => injection h with h; exact .inr (.inr ⟨_, h.symm⟩)

end Sys2Proof.Machine
end

