-- ==== Sys2Proof/Tests/Slice0.lean ====
section
/-! SUPPORT. Tests. Expected values come from the vectors of 95_test_vectors.md and the corner cases of the rules; the
witnesses at the end show, for each statement with hypotheses, a concrete state and operands that meet them. -/

namespace Sys2Proof.Tests

open Sys2Proof Sys2Proof.Machine

/-! ## Helpers -/

/-- The next state of an outcome, if it is one. -/
def nextState : Host.Outcome State Fault Refusal → Option State
  | .next s => some s
  | .fault _ => none
  | .refused _ => none

theorem exists_next {o : Host.Outcome State Fault Refusal} (h : (nextState o).isSome = true) : ∃ t, o = .next t := by
  cases o <;> simp_all [nextState]

/-- A reassembler `(inSeqNum, phase, declLen, rxKind)` in the notation of 95_test_vectors.md. -/
def rx (inSeq : Byte) (phase : Phase) (declLen : Half) (kind : Nibble) : State :=
  { State.reset with inSeqNum := inSeq, phase := phase, declLen := declLen, rxKind := kind }

/-- A segmenter with `outSeqNum = s0` and a script for its sink. -/
def tx (s0 : Byte) (turns : List SinkTurn) : State := { State.reset with outSeqNum := s0, sinkTurns := turns }

/-- The sink answers `Ok`. -/
def okTurn : SinkTurn := ⟨[], some .ok⟩
/-- The sink answers `SinkError`. -/
def errorTurn : SinkTurn := ⟨[], some .sinkError⟩
/-- The sink never returns. -/
def silentTurn : SinkTurn := ⟨[], none⟩
/-- The sink's code calls `RX.FRAME 05 00 01 00 | 99`, then answers `Ok`. -/
def nestedTurn : SinkTurn := ⟨[⟨.source, [0x05, 0x00, 0x01, 0x00, 0x99]⟩], some .ok⟩
/-- The sink's code calls `RESET` from inside `Transmit`. -/
def overlapTurn : SinkTurn := ⟨[⟨.command, [0xF0]⟩], some .ok⟩

/-- `{n × XX}` (R10). -/
def times (n : Nat) (b : Byte) : List Byte := List.replicate n b

/-- Request `r` stands at the head of the queue of `s`. -/
def asking (r : Request) (s : State) : State := { s with pending := [r] }

/-! ## WellFormed: a term each check refuses -/

theorem test_wf_report_payload_of_65536_bytes_refused (b : Byte) : (Instr.segReport (times 65536 b)).wellFormed = false := by
  rw [Instr.wellFormed, times, List.length_replicate]
  rfl
theorem test_wf_schema_payload_of_65536_bytes_refused (b : Byte) : (Instr.segSchema (times 65536 b)).wellFormed = false := by
  rw [Instr.wellFormed, times, List.length_replicate]
  rfl
set_option maxRecDepth 20000 in
theorem test_wf_lead_body_of_252_bytes_refused : (Instr.frameLead 0 0 0 252 (times 252 0)).wellFormed = false := by decide
set_option maxRecDepth 20000 in
theorem test_wf_cont_body_of_252_bytes_refused : (Instr.frameCont 0 0 0 0 0 (times 252 0)).wellFormed = false := by decide
set_option maxRecDepth 20000 in
theorem test_wf_bodies_of_251_bytes_admitted : (Instr.frameLead 0 0 0 252 (times 251 0)).wellFormed = true ∧
    (Instr.frameCont 0 0 0 0 0 (times 251 0)).wellFormed = true := by decide

/-! ## Decoding: words written out from R61 to R64 and R70 -/

/-- V-CMD-01: 0x10. -/
theorem test_decode_report : decode ⟨.command, [0b00010000, 0xAA, 0xBB]⟩ = .ok (.segReport [0xAA, 0xBB]) := rfl
/-- V-CMD-02: 0x11. -/
theorem test_decode_schema : decode ⟨.command, [0b00010001, 0x61]⟩ = .ok (.segSchema [0x61]) := rfl
/-- V-CMD-03: 0x20; the frame operand of any length. -/
theorem test_decode_rx_frame : decode ⟨.command, [0b00100000, 0x05, 0x00]⟩ = .ok (.rxFrame [0x05, 0x00]) := rfl
/-- V-CMD-04: 0xF0. -/
theorem test_decode_reset : decode ⟨.command, [0b11110000]⟩ = .ok .reset := rfl
/-- V-CMD-05: reserved selectors. -/
theorem test_decode_reserved : ∀ op ∈ [(0x00 : Byte), 0x0F, 0x12, 0x1F, 0x21, 0xEF, 0xF1, 0xFF],
    decodeCommand [op] = .error (.reservedSelector op) := by
  intro op h
  fin_cases h <;> rfl
/-- V-HDR-01: H = 0x00030005. -/
theorem test_decode_hdr01 : decode ⟨.source, [0x05, 0x00, 0x03, 0x00]⟩ = .ok (.frameLead 0x05 0x0 0 3 []) := rfl
/-- V-HDR-02: H = 0xFF001100. -/
theorem test_decode_hdr02 : decode ⟨.source, [0x00, 0x11, 0x00, 0xFF, 0xFB]⟩ =
    .ok (.frameCont 0x00 0x1 0 0x00 0xFF [0xFB]) := rfl
/-- V-HDR-03: H = 0x01F6E110, bit 12 clear, reserved bits set. -/
theorem test_decode_hdr03 : decode ⟨.source, [0x10, 0b11100001, 0xF6, 0x01]⟩ =
    .ok (.frameLead 0x10 0x1 0b111 502 []) := rfl
/-- V-HDR-04: H = 0x05ABF000, bit 12 set, reserved bits and unused byte set. -/
theorem test_decode_hdr04 : decode ⟨.source, [0x00, 0b11110000, 0xAB, 0x05]⟩ =
    .ok (.frameCont 0x00 0x0 0b111 0xAB 0x05 []) := rfl
/-- V-HDR-05: length 0xFB00 = 64256. -/
theorem test_decode_hdr05 : decode ⟨.source, [0x00, 0x00, 0x00, 0xFB]⟩ = .ok (.frameLead 0x00 0x0 0 64256 []) := rfl
set_option maxRecDepth 20000 in
/-- R64: the table's words of the two forms, bit 12 telling them apart. -/
theorem test_table_words : decodeTableWord 32 0x01F6E110 = some (.frameLead 0x10 0x1 0b111 502 []) ∧
    decodeTableWord 32 0x05ABF000 = some (.frameCont 0x00 0x0 0b111 0xAB 0x05 []) ∧
    decodeTableWord 8 0x10 = some (.segReport []) ∧ decodeTableWord 8 0x11 = some (.segSchema []) ∧
    decodeTableWord 8 0x20 = some (.rxFrame [0, 0, 0, 0]) ∧ decodeTableWord 8 0xF0 = some .reset ∧
    decodeTableWord 8 0x21 = none := by decide

/-! ## The segmenter, one operation each -/

/-- V-SEG-03. -/
theorem test_report_example : nextState (exec (.segReport [0xAA, 0xBB, 0xCC]) (tx 0x05 [okTurn])) =
    some { tx 0x06 [] with
      sinkCalls := 1
      outputs := [.transmit [0x05, 0x00, 0x03, 0x00, 0xAA, 0xBB, 0xCC], .returned .driver (.status .ok)] } := by decide
/-- V-SEG-13: the refused frame is counted. -/
theorem test_report_sink_error : nextState (exec (.segReport [0xAA, 0xBB, 0xCC]) (tx 0x7F [errorTurn])) =
    some { tx 0x80 [] with
      sinkCalls := 1
      outputs := [.transmit [0x7F, 0x00, 0x03, 0x00, 0xAA, 0xBB, 0xCC],
        .returned .driver (.status (.sinkError 0))] } := by decide
set_option maxRecDepth 20000 in
/-- V-SEG-06 with another filling: two frames across the wrap, the second `00 11 00 FF | FB`. -/
theorem test_schema_wraps :
    (nextState (exec (.segSchema (times 251 0x00 ++ [0xFB])) (tx 0xFF [okTurn, okTurn]))).map
      (fun t => (t.outSeqNum, t.outputs)) =
    some (0x01, [.transmit ([0xFF, 0x01, 0xFC, 0x00] ++ times 251 0x00), .transmit [0x00, 0x11, 0x00, 0xFF, 0xFB],
      .returned .driver (.status .ok)]) := by decide
set_option maxRecDepth 20000 in
/-- R80's examples. -/
theorem test_frame_counts : [0, 1, 250, 251, 252, 501, 502, 64256].map frameCount = [1, 1, 1, 1, 2, 2, 2, 256] := by decide
/-- R153 and R138: the nested `RX.FRAME` runs, and its result goes to the sink's code. -/
theorem test_nested_rx_frame : (nextState (exec (.segSchema [0xAA]) (tx 0x00 [nestedTurn]))).map
      (fun t => (t.outSeqNum, t.inSeqNum, t.outputs)) =
    some (0x01, 0x06, [.transmit [0x00, 0x01, 0x01, 0x00, 0xAA], .dispatch 0x0 [0x99],
      .returned .sink (.rx .ok true), .returned .driver (.status .ok)]) := by decide
/-- R153: a `RESET` from inside `Transmit` is refused; I5: a sink that never returns leaves the operation stuck. -/
theorem test_segmenter_stops : exec (.segReport [0xAA]) (tx 0x00 [overlapTurn]) = .refused .overlappingOperation ∧
    exec (.segSchema [0xAA]) (tx 0x00 [silentTurn]) = .fault .sinkNeverReturns := ⟨rfl, rfl⟩

/-! ## The reassembler, one operation each -/

/-- V-RX-01. -/
theorem test_rx01 : nextState (exec (.rxFrame [0x05, 0x00, 0x03, 0x00, 0xAA, 0xBB, 0xCC]) (rx 0x00 .idle 0 0)) =
    some { rx 0x06 .idle 3 0 with
      rbuf := [(0, 0xAA), (1, 0xBB), (2, 0xCC)]
      outputs := [.dispatch 0x0 [0xAA, 0xBB, 0xCC], .returned .driver (.rx .ok true)] } := by decide
/-- V-RX-14: acceptance is checked before the orphan case. -/
theorem test_rx14 : nextState (exec (.rxFrame [0x20, 0x10, 0x00, 0x12, 0xBB]) (rx 0x13 .idle 1 0)) =
    some { rx 0x13 .idle 1 0 with outputs := [.returned .driver (.rx (.sequenceGap 0x20) false)] } := by decide
/-- V-RX-11: the body is too short for the declared length. -/
theorem test_lead_short_body : nextState (exec (.frameLead 0x00 0 0 5 [0xAA, 0xBB]) (rx 0x00 .idle 0 0)) =
    some { rx 0x00 .idle 0 0 with outputs := [.returned .driver (.rx (.malformedFrame 6) false)] } := by decide
/-- V-RX-18 and V-RX-12: an unknown tag is passed through, an extra byte is ignored. -/
theorem test_lead_tag_and_extra_byte : nextState (exec (.frameLead 0xFF 0x7 0 1 [0x99, 0xCC]) (rx 0x33 .accumulating 502 0)) =
    some { rx 0x00 .idle 1 7 with
      rbuf := [(0, 0x99)]
      outputs := [.dispatch 0x7 [0x99], .returned .driver (.rx .ok true)] } := by decide
/-- V-RX-09: the fragment would end at 757. -/
theorem test_cont_overflow :
    nextState (exec (.frameCont 0x06 0 0 0x00 0x03 [0, 0, 0, 0]) (rx 0x06 .accumulating 512 0)) =
    some { rx 0x06 .accumulating 512 0 with
      outputs := [.returned .driver (.rx (.reassemblyOverflow 757) false)] } := by decide
/-- V-RX-04b: `seq` 00 behind `leadRef` FF, so base 251 and end 252 (the packet's other bytes left out). -/
theorem test_cont_wraps :
    (nextState (exec (.frameCont 0x00 1 0 0x00 0xFF [0xFB]) (rx 0x00 .accumulating 252 1))).map
      (fun t => { t with outputs := [] }) = some { rx 0x01 .idle 252 1 with rbuf := [(251, 0xFB)] } := by decide
/-! ## Reset and the step -/

/-- V-RST-01. -/
theorem test_reset : nextState (exec .reset { rx 0x33 .accumulating 400 1 with outSeqNum := 0x7A, rbuf := [(7, 0x42)] }) =
    some { rx 0x00 .idle 0 0 with rbuf := [(7, 0x42)], outputs := [.returned .driver (.status .ok)] } := by decide
/-- V-CMD-05: the step answers a reserved selector with `IllegalCommand`. -/
theorem test_step_reserved_selector : nextState (step (asking ⟨.command, [0xFF, 0x01]⟩ (rx 0x33 .accumulating 400 1))) =
    some { rx 0x33 .accumulating 400 1 with
      outputs := [.returned .driver (.status (.illegalCommand 0xFF))] } := by decide
/-- V-RX-10a: the step answers a frame of 3 bytes with `MalformedFrame(3)`. -/
theorem test_step_short_frame : nextState (step (asking ⟨.source, [0x00, 0x00, 0x00]⟩ (rx 0x33 .accumulating 400 1))) =
    some { rx 0x33 .accumulating 400 1 with
      outputs := [.returned .driver (.rx (.malformedFrame 3) false)] } := by decide
/-- Each row of the opcode table runs as the first instruction after power-on. -/
theorem test_first_step_of_each_row :
    ([(8, 0x10), (8, 0x11), (8, 0x20), (8, 0xF0), (32, 0x00000000), (32, 0x00001000)].map
      fun p => (nextState (step (State.reset.withFetchWord p.1 p.2))).isSome) =
    [true, true, true, true, true, true] := by decide

/-! ## Witnesses: for each statement with hypotheses, states and operands that meet them -/

/-- 252 bytes: two frames. -/
def two : List Byte := times 251 0x00 ++ [0xFB]

/-- A continuation frame as it stands on the wire. -/
def contWire (seq leadRef : Byte) (body : List Byte) : List Byte := [seq, 0x10, 0x00, leadRef] ++ body

/-- A leading frame as it stands on the wire, its length given as two bytes. -/
def leadWire (seq lo hi : Byte) (body : List Byte) : List Byte := [seq, 0x00, lo, hi] ++ body

theorem witness_StepRunsDecodedRequest :
    (asking ⟨.source, [0x00, 0xF0, 0xAB, 0x05]⟩ State.reset).pending = ⟨.source, [0x00, 0xF0, 0xAB, 0x05]⟩ :: [] ∧
    decode ⟨.source, [0x00, 0xF0, 0xAB, 0x05]⟩ = .ok (.frameCont 0x00 0x0 0x7 0xAB 0x05 []) ∧
    decode ⟨.command, [0xF0]⟩ = .ok .reset := ⟨rfl, rfl, rfl⟩

theorem witness_StepWithNothingPendingHoldsState : State.reset.pending = [] := rfl

theorem witness_ReservedSelectorReturnsIllegalCommand : ∀ op ∈ [(0x00 : Byte), 0x0F, 0x12, 0x1F, 0x21, 0xEF, 0xF1, 0xFF],
    op ≠ 0x10 ∧ op ≠ 0x11 ∧ op ≠ 0x20 ∧ op ≠ 0xF0 ∧
    (asking ⟨.command, op :: [0x01]⟩ State.reset).pending = ⟨.command, op :: [0x01]⟩ :: [] := by decide

set_option maxRecDepth 20000 in
theorem witness_StepOnSourceFrameIsRxFrame : ∀ frame ∈ [[], times 3 0, times 256 0],
    (asking ⟨.source, frame⟩ State.reset).pending = ⟨.source, frame⟩ :: [] ∧
      (frame.length < 4 ∨ 255 < frame.length) := by decide

theorem witness_StepRefusesBytesThatAreNoCommand :
    (asking ⟨.command, []⟩ State.reset).pending = ⟨.command, []⟩ :: [] ∧
    (asking ⟨.command, [0xF0, 0x00]⟩ State.reset).pending = ⟨.command, 0xF0 :: 0x00 :: []⟩ :: [] := ⟨rfl, rfl⟩

/-- One byte over `SEG_MAX_LEN`, and one byte over R70's range. -/
theorem witness_StepOnOversizedPayloadSendsNothing : State.reset.params.wf = true ∧
    State.reset.params.segMaxLen < (times 64257 0).length ∧ State.reset.params.segMaxLen < (times 65536 0).length ∧
    (asking ⟨.command, 0x10 :: times 64257 0⟩ State.reset).pending = ⟨.command, 0x10 :: times 64257 0⟩ :: [] ∧
    (asking ⟨.command, 0x11 :: times 65536 0⟩ State.reset).pending = ⟨.command, 0x11 :: times 65536 0⟩ :: [] :=
  ⟨rfl, by rw [times, List.length_replicate]; decide, by rw [times, List.length_replicate]; decide, rfl, rfl⟩

set_option maxRecDepth 20000 in
theorem witness_DecodeOfEncodeIsIdentity : ∀ i ∈ [.segReport [], .segSchema two, .rxFrame (times 256 0), .reset,
    .frameLead 0xFF 0xF 0x7 0xFFFF (times 251 0xFF), .frameCont 0xFF 0xF 0x7 0xFF 0xFF []],
    Instr.wellFormed i = true := by decide

theorem witness_EncodeOfDecodeIsIdentity :
    decode ⟨.source, [0x10, 0xE1, 0xF6, 0x01, 0x7E]⟩ = .ok (.frameLead 0x10 0x1 0x7 502 [0x7E]) ∧
    decode ⟨.command, [0x20, 0x05]⟩ = .ok (.rxFrame [0x05]) := ⟨rfl, rfl⟩

set_option maxRecDepth 20000 in
theorem witness_HeaderBit12ChoosesTheForm : ∀ body ∈ [[], times 251 0xFF],
    4 ≤ (leadWire 0 0 0 body).length ∧ (leadWire 0 0 0 body).length ≤ 255 ∧
    headerWord (leadWire 0 0 0 body) &&& 0x00001000 = 0x00000000 ∧
    4 ≤ (contWire 0 0 body).length ∧ (contWire 0 0 body).length ≤ 255 ∧
    headerWord (contWire 0 0 body) &&& 0x00001000 = 0x00001000 := by decide

set_option maxRecDepth 20000 in
/-- The header of all ones is a continuation frame; with bit 12 cleared it is a leading frame. -/
theorem witness_HeaderFieldsStandWhereTheTableSays : (times 251 0).length ≤ 251 ∧
    0xFFFFFFFF = (0xFF : Byte).toNat + 256 * (0xFF : Byte).toNat + 65536 * (0xFF : Byte).toNat + 16777216 * (0xFF : Byte).toNat ∧
    0xFFFFFFFF / 4096 % 2 = 1 ∧
    0xFFFFEFFF = (0xFF : Byte).toNat + 256 * (0xEF : Byte).toNat + 65536 * (0xFF : Byte).toNat + 16777216 * (0xFF : Byte).toNat ∧
    0xFFFFEFFF / 4096 % 2 = 0 := by decide

theorem witness_AfterResetContinuationsAreOrphansOrGaps : (∃ t, exec .reset (rx 0x33 .accumulating 400 1) = .next t) ∧
    ∀ seq ∈ [(0x00 : Byte), 0x01, 0xFF], 4 ≤ (contWire seq 0xFF [0xAA]).length ∧ (contWire seq 0xFF [0xAA]).length ≤ 255 ∧
      frameIsCont (contWire seq 0xFF [0xAA]) = true ∧ frameSeq (contWire seq 0xFF [0xAA]) = seq :=
  ⟨⟨_, rfl⟩, by decide⟩

theorem witness_FrameCountIsCeiling : 250 < 251 ∧ 251 ≤ 251 := by decide

set_option maxRecDepth 20000 in
/-- One byte too many; one and two frames answered `Ok`; a refusal of the first and of the last of two frames. -/
theorem witness_SegmentAndSendEffect :
    (Segments { State.reset with params := { Config.defaults with segMaxLen := 3 } } (.segReport [1, 2, 3, 4]) [1, 2, 3, 4] 0 ∧
      ({ State.reset with params := { Config.defaults with segMaxLen := 3 } } : State).params.segMaxLen < [1, 2, 3, 4].length) ∧
    (Segments (tx 0xFF [okTurn]) (.segReport []) [] 0 ∧ ([] : List Byte).length ≤ (tx 0xFF [okTurn]).params.segMaxLen ∧
      ∀ j < packetFrames ([] : List Byte).length, (tx 0xFF [okTurn]).callsAt j = [] ∧ (tx 0xFF [okTurn]).answer j = some .ok) ∧
    (Segments (tx 0xFF [okTurn, okTurn]) (.segSchema two) two 1 ∧ two.length ≤ (tx 0xFF [okTurn, okTurn]).params.segMaxLen ∧
      ∀ j < packetFrames two.length,
        (tx 0xFF [okTurn, okTurn]).callsAt j = [] ∧ (tx 0xFF [okTurn, okTurn]).answer j = some .ok) ∧
    (0 < packetFrames two.length ∧ (∀ j ≤ 0, (tx 0xFF [errorTurn]).callsAt j = []) ∧
      (tx 0xFF [errorTurn]).answer 0 = some .sinkError) ∧
    (1 < packetFrames two.length ∧ (∀ j ≤ 1, (tx 0xFF [okTurn, errorTurn]).callsAt j = []) ∧
      (∀ j < 1, (tx 0xFF [okTurn, errorTurn]).answer j = some .ok) ∧
      (tx 0xFF [okTurn, errorTurn]).answer 1 = some .sinkError) := by decide

set_option maxRecDepth 20000 in
/-- For FramesGoOutInOrderAfterOk, the first clause of NestedResultsGoToTheSink and the last clause of CallsFromInsideTransmit: a finished
operation of two frames, with a nested call. -/
theorem witness_FramesGoOutInOrderAfterOk :
    Segments (tx 0xFF [okTurn, nestedTurn]) (.segReport two) two 0 ∧
      ∃ t, exec (.segReport two) (tx 0xFF [okTurn, nestedTurn]) = .next t :=
  ⟨by decide, exists_next (by decide)⟩

theorem witness_NestedResultsGoToTheSink :
    Segments (tx 0xFF [nestedTurn]) (.segSchema [0xAA]) [0xAA] 1 ∧
      ∃ t, exec (.segSchema [0xAA]) (tx 0xFF [nestedTurn]) = .next t :=
  ⟨by decide, exists_next (by decide)⟩

theorem witness_SegmenterCompletesWheneverTheSinkAnswers : ∀ turn ∈ [okTurn, errorTurn, nestedTurn],
    Segments (tx 0xFF [turn]) (.segReport [0xAA]) [0xAA] 0 ∧
      ∀ j < packetFrames [(0xAA : Byte)].length, (tx 0xFF [turn]).answer j ≠ none ∧
        ∀ r ∈ (tx 0xFF [turn]).callsAt j, r.inboundFrame ≠ none := by decide

set_option maxRecDepth 20000 in
/-- The first and the last of two frames. -/
theorem witness_SilentSinkLeavesSegmenterStuck : ∀ p ∈ [(0, [silentTurn]), (1, [nestedTurn, silentTurn])],
    Segments (tx 0xFF p.2) (.segReport two) two 0 ∧ two.length ≤ (tx 0xFF p.2).params.segMaxLen ∧
      p.1 < packetFrames two.length ∧ (∀ j ≤ p.1, ∀ r ∈ (tx 0xFF p.2).callsAt j, r.inboundFrame ≠ none) ∧
      (∀ j < p.1, (tx 0xFF p.2).answer j = some .ok) ∧ (tx 0xFF p.2).answer p.1 = none := by decide

theorem witness_CallsFromInsideTransmit_decodes :
    decode ⟨.command, [0xF0]⟩ = .ok .reset ∧ decode ⟨.command, [0x10]⟩ = .ok (.segReport []) ∧
    decode ⟨.command, [0x20]⟩ = .ok (.rxFrame []) ∧ decode ⟨.source, [0, 0, 0, 0]⟩ = .ok (.frameLead 0 0 0 0 []) :=
  ⟨rfl, rfl, rfl, rfl⟩

set_option maxRecDepth 20000 in
theorem witness_CallsFromInsideTransmit_refused : ∀ p ∈ [(0, [overlapTurn]), (1, [nestedTurn, overlapTurn])],
    Segments (tx 0xFF p.2) (.segReport two) two 0 ∧ two.length ≤ (tx 0xFF p.2).params.segMaxLen ∧
      p.1 < packetFrames two.length ∧
      (∀ j < p.1, (tx 0xFF p.2).answer j = some .ok ∧ ∀ r ∈ (tx 0xFF p.2).callsAt j, r.inboundFrame ≠ none) ∧
      ∃ r ∈ (tx 0xFF p.2).callsAt p.1, r.inboundFrame = none := by decide

/-- For SegmenterLeavesReassemblerAlone and FramesAreBoundedAndNeverTooLarge. -/
theorem witness_SegmenterLeavesReassemblerAlone :
    (tx 0xFF [okTurn]).params.wf = true ∧ Segments (tx 0xFF [okTurn]) (.segReport [0xAA]) [0xAA] 0 ∧
      (∀ j < packetFrames [(0xAA : Byte)].length, (tx 0xFF [okTurn]).callsAt j = []) ∧
      ∃ t, exec (.segReport [0xAA]) (tx 0xFF [okTurn]) = .next t :=
  ⟨by decide, by decide, by decide, exists_next (by decide)⟩

/-- The longest payload, its first and its last frame. -/
theorem witness_PacketSequenceNumbersAreDistinct : (times 64256 0).length ≤ 64256 ∧
    0 < packetFrames (times 64256 0).length ∧ 255 < packetFrames (times 64256 0).length := by
  rw [times, List.length_replicate]
  decide

set_option maxRecDepth 20000 in
theorem witness_PacketCarriesPayloadInOrder : 0 < [(0xAA : Byte)].length ∧ 251 < two.length := by decide

set_option maxRecDepth 20000 in
/-- For PacketSequenceNumbersAreDistinct and PacketCarriesPayloadInOrder, the frames sent: V-SEG-06's second frame, across
the wrap, has the last byte of the payload, and the status is `Ok`. -/
theorem witness_PacketCarriesPayloadInOrder_sent :
    Segments (tx 0xFF [okTurn, okTurn]) (.segSchema two) two 1 ∧ two.length ≤ 64256 ∧ 251 < two.length ∧
    (∃ t, exec (.segSchema two) (tx 0xFF [okTurn, okTurn]) = .next t) ∧
    (nextState (exec (.segSchema two) (tx 0xFF [okTurn, okTurn]))).map
      (fun t => ((framesIn (newOutputs (tx 0xFF [okTurn, okTurn]) t))[1]?, t.outputs.getLast?)) =
      some (some [0x00, 0x11, 0x00, 0xFF, 0xFB], some (.returned .driver (.status .ok))) :=
  ⟨by decide, by decide, by decide, exists_next (by decide), by decide⟩

set_option maxRecDepth 20000 in
/-- For DeclaredLengthIsLittleEndian, ReservedBitsAreZeroOutAndIgnoredIn, and the last clauses of
ContinuationKindTagIsIgnored and OutSeqNumBelongsToTheSegmenter: a leading and a continuation frame go out. -/
theorem witness_DeclaredLengthIsLittleEndian :
    Segments (tx 0xFF [okTurn, okTurn]) (.segSchema two) two 1 ∧ two.length ≤ 65535 ∧
    (∃ t, exec (.segSchema two) (tx 0xFF [okTurn, okTurn]) = .next t) ∧
    (nextState (exec (.segSchema two) (tx 0xFF [okTurn, okTurn]))).map
      (fun t => (framesIn (newOutputs (tx 0xFF [okTurn, okTurn]) t)).map frameIsCont) = some [false, true] :=
  ⟨by decide, by decide, exists_next (by decide), by decide⟩

set_option maxRecDepth 20000 in
theorem witness_FrameLengthOutsideRangeIsMalformed : ∀ frame ∈ [[], times 3 0, times 256 0],
    frame.length < 4 ∨ 255 < frame.length := by decide

set_option maxRecDepth 20000 in
/-- A gap; a continuation in sequence; a leading frame out of sequence, at 4 and at 255 bytes. -/
theorem witness_AcceptanceRule :
    (∀ body ∈ [[], times 251 0], 4 ≤ (contWire 0x20 0x12 body).length ∧ (contWire 0x20 0x12 body).length ≤ 255 ∧
      ¬(frameSeq (contWire 0x20 0x12 body) = (rx 0x13 .idle 1 0).inSeqNum ∨ frameIsCont (contWire 0x20 0x12 body) = false)) ∧
    (∀ frame ∈ [contWire 0x13 0x12 [], leadWire 0x20 0x00 0x00 (times 251 0)], 4 ≤ frame.length ∧ frame.length ≤ 255 ∧
      (frameSeq frame = (rx 0x13 .idle 1 0).inSeqNum ∨ frameIsCont frame = false)) := by decide

theorem witness_RxFrameRunsTheDecodedForm :
    decode ⟨.source, [0x05, 0x00, 0x03, 0x00]⟩ = .ok (.frameLead 0x05 0 0 3 []) ∧
    decode ⟨.source, [0x13, 0x10, 0x00, 0x12, 0xBB]⟩ = .ok (.frameCont 0x13 0 0 0x00 0x12 [0xBB]) := ⟨rfl, rfl⟩

set_option maxRecDepth 20000 in
/-- Capacity 512: one byte over it; one body byte short; the lengths 0, 251, 252 and 512. -/
theorem witness_LeadingFrameEffect :
    ([] : List Byte).length ≤ 251 ∧ (times 250 0).length ≤ 251 ∧ (times 251 0).length ≤ 251 ∧
    State.reset.params.reasmCap < (513 : Half).toNat ∧
    ((251 : Half).toNat ≤ State.reset.params.reasmCap ∧ (times 250 0).length < min (251 : Half).toNat 251) ∧
    ((0 : Half).toNat ≤ State.reset.params.reasmCap ∧ min (0 : Half).toNat 251 ≤ ([] : List Byte).length ∧ (0 : Half).toNat ≤ 251) ∧
    ((251 : Half).toNat ≤ State.reset.params.reasmCap ∧ min (251 : Half).toNat 251 ≤ (times 251 0).length ∧
      (251 : Half).toNat ≤ 251) ∧
    ((252 : Half).toNat ≤ State.reset.params.reasmCap ∧ min (252 : Half).toNat 251 ≤ (times 251 0).length ∧
      251 < (252 : Half).toNat) ∧
    ((512 : Half).toNat ≤ State.reset.params.reasmCap ∧ min (512 : Half).toNat 251 ≤ (times 251 0).length ∧
      251 < (512 : Half).toNat) := by
  simp [times, State.reset, Config.defaults]

set_option maxRecDepth 20000 in
/-- Capacity 512: the gap; the orphan; an end of 513; an end of 512 that completes; an end of 512 that does not; an empty
body; the index formed across the wrap. -/
theorem witness_ContinuationFrameEffect :
    ((times 251 0).length ≤ 251 ∧ 251 = 251 * ((256 + (0x00 : Byte).toNat - (0xFF : Byte).toNat) % 256)) ∧
    (0x20 : Byte) ≠ (rx 0x13 .idle 1 0).inSeqNum ∧
    (0x13 : Byte) = (rx 0x13 .idle 1 0).inSeqNum ∧ (rx 0x13 .idle 1 0).phase = .idle ∧
    (502 = 251 * ((256 + (0x05 : Byte).toNat - (0x03 : Byte).toNat) % 256) ∧
      (0x05 : Byte) = (rx 0x05 .accumulating 512 0).inSeqNum ∧ (rx 0x05 .accumulating 512 0).phase = .accumulating ∧
      (rx 0x05 .accumulating 512 0).params.reasmCap < 502 + (times 11 0).length ∧
      502 + (times 10 0).length ≤ (rx 0x05 .accumulating 512 0).params.reasmCap ∧
      502 + (times 10 0).length = (rx 0x05 .accumulating 512 0).declLen.toNat ∧
      502 + (times 10 0).length ≠ (rx 0x05 .accumulating 502 0).declLen.toNat ∧
      502 + ([] : List Byte).length = (rx 0x05 .accumulating 502 0).declLen.toNat) := by decide

set_option maxRecDepth 20000 in
theorem witness_AcceptedFrameSetsInSeqNum :
    (4 ≤ (leadWire 0x80 0x00 0x02 (times 251 0)).length ∧ (leadWire 0x80 0x00 0x02 (times 251 0)).length ≤ 255 ∧
      frameIsCont (leadWire 0x80 0x00 0x02 (times 251 0)) = false ∧
      (frameLength (leadWire 0x80 0x00 0x02 (times 251 0))).toNat ≤ (rx 0x13 .idle 1 0).params.reasmCap ∧
      min (frameLength (leadWire 0x80 0x00 0x02 (times 251 0))).toNat 251
        ≤ (leadWire 0x80 0x00 0x02 (times 251 0)).length - 4) ∧
    (frameIsCont (contWire 0x13 0x12 [0xBB]) = true ∧ frameSeq (contWire 0x13 0x12 [0xBB]) = (rx 0x13 .idle 1 0).inSeqNum ∧
      (rx 0x13 .idle 1 0).phase = .idle) ∧
    (frameSeq (contWire 0x05 0x03 (times 10 0)) = (rx 0x05 .accumulating 512 0).inSeqNum ∧
      251 * fragIdx (frameSeq (contWire 0x05 0x03 (times 10 0))) (frameLeadRef (contWire 0x05 0x03 (times 10 0)))
        + ((contWire 0x05 0x03 (times 10 0)).length - 4) ≤ (rx 0x05 .accumulating 512 0).params.reasmCap) ∧
    ¬(4 ≤ (times 3 0).length) ∧ ¬((times 256 0).length ≤ 255) ∧
    ¬(frameIsCont (contWire 0x20 0x12 []) = false ∨
      frameSeq (contWire 0x20 0x12 []) = (rx 0x13 .idle 1 0).inSeqNum) := by decide

/-- For CompletionDispatchesOnce, RxFrameLeavesTheRestAlone and RejectedFrameChangesNothing: a completing leading frame, a
completing and an open continuation frame, a rejected frame; in the two ways the last of these names an instruction. -/
theorem witness_CompletionDispatchesOnce :
    (∃ t, exec (.rxFrame (leadWire 0x05 0x01 0x00 [0x99])) (rx 0x00 .idle 0 0) = .next t) ∧
    (∃ t, exec (.rxFrame (contWire 0x05 0x03 [])) (rx 0x05 .accumulating 502 0) = .next t) ∧
    (∃ t, exec (.rxFrame (contWire 0x05 0x03 [])) (rx 0x05 .accumulating 512 0) = .next t) ∧
    (∃ t, exec (.rxFrame (contWire 0x20 0x12 [])) (rx 0x13 .idle 1 0) = .next t) :=
  ⟨⟨_, rfl⟩, ⟨_, rfl⟩, ⟨_, rfl⟩, ⟨_, rfl⟩⟩

theorem witness_RejectedFrameChangesNothing :
    encode (.frameCont 0x20 0 0 0x00 0x12 []) = ⟨.source, contWire 0x20 0x12 []⟩ ∧
    (∃ t, exec (.frameCont 0x20 0 0 0x00 0x12 []) (rx 0x13 .idle 1 0) = .next t) ∧
    Status.sequenceGap 0x20 ≠ Status.ok :=
  ⟨by decide, ⟨_, rfl⟩, by decide⟩

theorem witness_ContinuationKindTagIsIgnored :
    ∃ t, exec (.rxFrame (contBytes 0x05 0xF 0 0x00 0x03 [])) (rx 0x05 .accumulating 502 1) = .next t := ⟨_, rfl⟩

/-- A declared length over the capacity; an accepted continuation frame in Accumulating; an accepted leading frame. -/
theorem witness_OverflowFailsClosed :
    (∃ t, exec (.rxFrame (leadWire 0x05 0x01 0x04 [])) (rx 0x00 .idle 0 0) = .next t ∧
      Output.returned .driver (.rx (.reassemblyOverflow 1025) false) ∈ newOutputs (rx 0x00 .idle 0 0) t) ∧
    (∃ t, exec (.rxFrame (contWire 0x05 0x03 (times 10 0))) (rx 0x05 .accumulating 502 0) = .next t ∧
      frameIsCont (contWire 0x05 0x03 (times 10 0)) = true ∧ (rx 0x05 .accumulating 502 0).phase = .accumulating ∧
      t.outputs.getLast? = some (.returned .driver (.rx .ok false)) ∧ 9 < (frameBody (contWire 0x05 0x03 (times 10 0))).length) ∧
    (∃ t, exec (.rxFrame (leadWire 0x05 0x01 0x00 [0x99, 0xCC])) (rx 0x00 .idle 0 0) = .next t ∧
      frameIsCont (leadWire 0x05 0x01 0x00 [0x99, 0xCC]) = false ∧
      t.outputs.getLast? = some (.returned .driver (.rx .ok true)) ∧
      0 < leadSpan (frameLength (leadWire 0x05 0x01 0x00 [0x99, 0xCC]))) :=
  ⟨⟨_, rfl, by decide⟩, ⟨_, rfl, by decide, by decide, by decide, by decide⟩, ⟨_, rfl, by decide, by decide, by decide⟩⟩

/-- For StepKeepsInvariant, ParametersNeverChange and OutputsAreNeverRecalled: a state in reassembly that takes a frame. -/
theorem witness_StepKeepsInvariant :
    (asking ⟨.source, contWire 0x05 0x03 [0x01]⟩ { rx 0x05 .accumulating 512 0 with rbuf := [(0, 7), (511, 9)] }).Inv ∧
    ∃ t, step (asking ⟨.source, contWire 0x05 0x03 [0x01]⟩
      { rx 0x05 .accumulating 512 0 with rbuf := [(0, 7), (511, 9)] }) = .next t :=
  ⟨by decide, ⟨_, rfl⟩⟩

theorem witness_OutSeqNumBelongsToTheSegmenter :
    (∃ t, exec (.segReport [0xAA]) (tx 0xFF [okTurn]) = .next t) ∧ (∃ t, exec (.segSchema [0xAA]) (tx 0xFF [okTurn]) = .next t) ∧
    (∃ t, exec .reset (tx 0xFF []) = .next t) ∧ (∃ t, exec (.rxFrame []) (tx 0xFF []) = .next t) ∧
    (∃ t, exec (.frameLead 0 0 0 0 []) (tx 0xFF []) = .next t) ∧ (∃ t, exec (.frameCont 0 0 0 0 0 []) (tx 0xFF []) = .next t) ∧
    (∀ payload, Instr.reset ≠ .segReport payload ∧ Instr.reset ≠ .segSchema payload) :=
  ⟨exists_next (by decide), exists_next (by decide), ⟨_, rfl⟩, ⟨_, rfl⟩, ⟨_, rfl⟩, ⟨_, rfl⟩, by simp⟩

/-- For ReassemblerRegistersHaveOnlyTheirWriters and AccumulatingEndsOnlyByCompletionOrReset: `RESET` in reassembly, and a
leading frame that replaces `declLen`, `rxKind`, `inSeqNum`, `phase` and a byte of `rbuf`. -/
theorem witness_ReassemblerRegistersHaveOnlyTheirWriters :
    (∀ j, (rx 0x05 .accumulating 502 1).callsAt j = []) ∧ (rx 0x05 .accumulating 502 1).phase = .accumulating ∧
    (∃ t, exec .reset (rx 0x05 .accumulating 502 1) = .next t ∧ t.phase = .idle ∧ t.declLen ≠ 502) ∧
    (∃ t, exec (.rxFrame (leadWire 0x80 0x01 0x00 [0x99])) (rx 0x05 .accumulating 502 1) = .next t ∧ t.phase = .idle ∧
      t.declLen ≠ 502 ∧ t.rxKind ≠ 1 ∧ t.inSeqNum ≠ 0x05 ∧ t.rbuf ≠ []) :=
  ⟨fun _ => rfl, rfl, ⟨_, rfl, by decide, by decide⟩, ⟨_, rfl, by decide, by decide, by decide, by decide, by decide⟩⟩

theorem witness_SegmenterAndReassemblerCommute :
    Segments (tx 0xFF [okTurn]) (.segReport [0xAA]) [0xAA] 0 ∧
    (∀ j < packetFrames [(0xAA : Byte)].length, (tx 0xFF [okTurn]).callsAt j = []) ∧
    ∃ s1, exec (.segReport [0xAA]) (tx 0xFF [okTurn]) = .next s1 ∧
      ∃ s2, exec (.rxFrame (leadWire 0x05 0x01 0x00 [0x99])) s1 = .next s2 := by
  refine ⟨by decide, by decide, ?_⟩
  obtain ⟨s1, h⟩ := exists_next (o := exec (.segReport [0xAA]) (tx 0xFF [okTurn])) (by decide)
  exact ⟨s1, h, _, rfl⟩

set_option maxRecDepth 20000 in
/-- 252 bytes in two frames across the wrap, to a receiver in the middle of another packet. -/
theorem witness_RoundTrip :
    Segments (tx 0xFF [okTurn, okTurn]) (.segSchema two) two 1 ∧ (tx 0xFF [okTurn, okTurn]).params.wf = true ∧
    (rx 0x37 .accumulating 502 0).params.wf = true ∧ two.length ≤ (tx 0xFF [okTurn, okTurn]).params.segMaxLen ∧
    two.length ≤ (rx 0x37 .accumulating 502 0).params.reasmCap ∧
    (∀ j < packetFrames two.length,
      (tx 0xFF [okTurn, okTurn]).callsAt j = [] ∧ (tx 0xFF [okTurn, okTurn]).answer j = some .ok) ∧
    ∃ a', exec (.segSchema two) (tx 0xFF [okTurn, okTurn]) = .next a' :=
  ⟨by decide, by decide, by decide, by decide, by decide, by decide, exists_next (by decide)⟩

set_option maxRecDepth 20000 in
/-- Two frames; the second lost, and the first lost by a receiver that expects it. -/
theorem witness_LossIsRejectedNotSpliced :
    (rx 0xFF .idle 0 0).params.wf = true ∧ two.length ≤ (rx 0xFF .idle 0 0).params.reasmCap ∧
    1 < packetFrames two.length ∧ 1 ≤ 1 ∧ 0 < packetFrames two.length ∧ (rx 0xFF .idle 0 0).inSeqNum = 0xFF := by decide

end Sys2Proof.Tests
end

section
/-! PROOFS. The state family: the invariant of R30 with R7 and R26, and who writes which register (R21, R31). -/

namespace Sys2Proof.Machine

open Sys2Proof

/-! ## The arms of `exec` -/

section
variable (seq : Byte) (kindTag : Nibble) (reserved : BitVec 3) (body : List Byte) (s : State)

theorem exec_rxFrame (frame : List Byte) : exec (.rxFrame frame) s = .next (rxFrame .driver frame s) := rfl

theorem exec_reset : exec .reset s = .next (s.clearRegisters.emit (.returned .driver (.status .ok))) := rfl

/-- `FRAME.LEAD` is `RX.FRAME` of the frame that encodes it, a body no frame can hold included. -/
theorem exec_frameLead (length : Half) :
    exec (.frameLead seq kindTag reserved length body) s =
      .next (rxFrame .driver (leadBytes seq kindTag reserved length body) s) := by
  by_cases hb : 251 < body.length
  · rw [rxFrame_malformed (by simp only [length_leadBytes]; omega)]
    simp [exec, execFrameLead, hb, Nat.add_comm]
  · rw [rxFrame_lead (by simp) (by simp only [length_leadBytes]; omega) (by simp)]
    simp [exec, execFrameLead, hb]

/-- `FRAME.CONT` is `RX.FRAME` of the frame that encodes it: both apply the acceptance rule of R103. -/
theorem exec_frameCont (unused leadRef : Byte) :
    exec (.frameCont seq kindTag reserved unused leadRef body) s =
      .next (rxFrame .driver (contBytes seq kindTag reserved unused leadRef body) s) := by
  by_cases hb : 251 < body.length
  · rw [rxFrame_malformed (by simp only [length_contBytes]; omega)]
    simp [exec, execFrameCont, hb, Nat.add_comm]
  · have hlen : (contBytes seq kindTag reserved unused leadRef body).length ≤ 255 := by
      simp only [length_contBytes]
      omega
    by_cases hs : seq = s.inSeqNum
    · rw [rxFrame_cont (by simp) hlen (by simp) (by simpa using hs)]
      simp [exec, execFrameCont, hb, hs]
    · rw [rxFrame_gap (by simp) hlen (by simp) (by simpa using hs)]
      simp [exec, execFrameCont, hb, hs]

end

/-- The instruction hands `frame` to the reassembler: as the command `RX.FRAME` (R100), or as the frame form that
encodes to it (R60). -/
def Receives (i : Instr) (frame : List Byte) : Prop := i = .rxFrame frame ∨ encode i = ⟨.source, frame⟩

/-- One meaning for all three receiving instructions: `RX.FRAME` of the frame, for the driver. -/
theorem exec_receives {i : Instr} {frame : List Byte} (h : Receives i frame) (s : State) :
    exec i s = .next (rxFrame .driver frame s) := by
  rcases h with rfl | h
  · exact exec_rxFrame s frame
  · cases i with
    | frameLead seq kindTag reserved length body =>
      cases h
      exact exec_frameLead seq kindTag reserved body s length
    | frameCont seq kindTag reserved unused leadRef body =>
      cases h
      exact exec_frameCont seq kindTag reserved body s unused leadRef
    | _ => cases h

/-- The three kinds of instruction: one segments, one resets, and every other receives a frame. -/
theorem instr_kinds (s : State) (i : Instr) :
    (∃ payload tag, Segments s i payload tag) ∨ i = .reset ∨ ∃ frame, Receives i frame := by
  cases i with
  | segReport payload => exact .inl ⟨payload, s.params.kindReport, .inl ⟨rfl, rfl⟩⟩
  | segSchema payload => exact .inl ⟨payload, s.params.kindSchema, .inr ⟨rfl, rfl⟩⟩
  | rxFrame frame => exact .inr (.inr ⟨frame, .inl rfl⟩)
  | reset => exact .inr (.inl rfl)
  | frameLead _ _ _ _ _ => exact .inr (.inr ⟨_, .inr rfl⟩)
  | frameCont _ _ _ _ _ _ => exact .inr (.inr ⟨_, .inr rfl⟩)

/-- Every instruction that answers a next state: it segments a payload, it is `RESET`, or it receives a frame. -/
theorem exec_cases {s t : State} {i : Instr} (h : exec i s = .next t) :
    (∃ payload tag, Segments s i payload tag) ∨
    (i = .reset ∧ t = s.clearRegisters.emit (.returned .driver (.status .ok))) ∨
    ∃ frame, Receives i frame ∧ t = rxFrame .driver frame s := by
  rcases instr_kinds s i with hs | rfl | ⟨frame, hr⟩
  · exact .inl hs
  · rw [exec_reset] at h
    cases h
    exact .inr (.inl ⟨rfl, rfl⟩)
  · rw [exec_receives hr] at h
    cases h
    exact .inr (.inr ⟨frame, hr, rfl⟩)

/-! ## What a finished `SEG.*` leaves behind -/

section
variable {s t : State} {i : Instr} {payload : List Byte} {tag : Nibble}

/-- The reassembler ends as if it had received the nested frames alone (R51, R153). -/
theorem exec_segments_around (hs : Segments s i payload tag) (h : exec i s = .next t) :
    ∃ m x turns calls outs,
      t = (receiveFrom .sink (s.nestedFrames m) s).around x s.pending turns calls outs := by
  rcases exec_segments_next hs h with ⟨_, rfl⟩ | ⟨_, m, st, _, _, _, _, rfl, _⟩
  · exact ⟨0, s.outSeqNum, s.sinkTurns, s.sinkCalls, _, rfl⟩
  · obtain ⟨x, turns, calls, outs, hu⟩ :=
      handedOver_around (payload := payload) (tag := tag) (s0 := s.outSeqNum) m 0 s
    rw [hu]
    exact ⟨m, x, turns, calls, _, rfl⟩

/-- With a sink whose code makes no call, only the surroundings change. -/
theorem exec_segments_quiet (hs : Segments s i payload tag) (hq : ∀ j, s.callsAt j = []) (h : exec i s = .next t) :
    ∃ x turns calls outs, t = s.around x s.pending turns calls outs := by
  obtain ⟨m, x, turns, calls, outs, ht⟩ := exec_segments_around hs h
  rw [nestedFrames_quiet fun j _ => hq j, receiveFrom_nil] at ht
  exact ⟨x, turns, calls, outs, ht⟩

/-- R21: `m` frames were handed over, frame j with `S0 + j` as its number, and `outSeqNum` has counted them. -/
theorem exec_segments_numbers (hs : Segments s i payload tag) (h : exec i s = .next t) :
    ∃ m, t.outSeqNum = s.outSeqNum + BitVec.ofNat 8 m ∧
      framesIn (newOutputs s t) = (List.range m).map fun j =>
        segFrame payload tag s.outSeqNum (s.outSeqNum + BitVec.ofNat 8 j) (0 + j) := by
  rcases exec_segments_next hs h with ⟨_, rfl⟩ | ⟨_, m, st, _, _, _, _, rfl, _⟩
  · exact ⟨0, by simp, by simp [newOutputs, framesIn, Output.frame?]⟩
  · obtain ⟨new, hout, hframes, _, _⟩ :=
      handedOver_outputs (payload := payload) (tag := tag) (s0 := s.outSeqNum) m 0 s
    obtain ⟨hseq, _⟩ := handedOver_keeps (payload := payload) (tag := tag) (s0 := s.outSeqNum) m 0 s
    refine ⟨m, by simpa using hseq, ?_⟩
    simp only [newOutputs, State.endWith_eq, State.emit_outputs, hout, List.append_assoc, List.drop_left,
      framesIn_append, hframes]
    simp [framesIn, Output.frame?]

end

/-! ## The invariant -/

/-- The invariant asks nothing of the surroundings. -/
theorem State.Inv.around {s : State} (h : s.Inv) (x : Byte) (pending : List Request) (turns : List SinkTurn)
    (calls : Nat) (outs : List Output) : (s.around x pending turns calls outs).Inv := h

theorem State.Inv.emit {s : State} (h : s.Inv) (o : Output) : (s.emit o).Inv := h

theorem State.Inv.dropRequest {s : State} (h : s.Inv) : s.dropRequest.Inv := h

/-- The registers of `RESET` meet R30 (a), since `phase` is Idle. -/
theorem State.Inv.clearRegisters {s : State} (h : s.Inv) : s.clearRegisters.Inv := by
  obtain ⟨hparams, hwf, hwithin, _⟩ := h
  exact ⟨hparams, hwf, hwithin, by simp⟩

/-- A write that ends within the capacity (R134). -/
theorem State.Inv.storeAt {s : State} (h : s.Inv) {a : Nat} {bs : List Byte}
    (ha : a + bs.length ≤ s.params.reasmCap) : (s.storeAt a bs).Inv := by
  obtain ⟨hparams, hwf, hwithin, hopen⟩ := h
  exact ⟨hparams, Memory.write_wf hwf a bs, Memory.write_within hwithin ha, hopen⟩

/-- A completed packet leaves `phase` Idle, so R30 (a) asks nothing of the length latched. -/
theorem State.Inv.complete_latchLead {s : State} (h : s.Inv) (length : Half) (tag : Nibble) (seq : Byte)
    (caller : Caller) : (((s.latchLead length tag).expectAfter seq).complete caller).Inv := by
  obtain ⟨hparams, hwf, hwithin, _⟩ := h
  exact ⟨hparams, hwf, hwithin, by simp⟩

theorem State.Inv.complete {s : State} (h : s.Inv) (caller : Caller) : (s.complete caller).Inv :=
  h.complete_latchLead s.declLen s.rxKind s.inSeqNum caller

/-- A packet opened with a length over one body and within the capacity. -/
theorem State.Inv.accumulate_latchLead {s : State} (h : s.Inv) {length : Half} (tag : Nibble) (seq : Byte)
    (hl : 251 < length.toNat) (hc : length.toNat ≤ s.params.reasmCap) :
    (((s.latchLead length tag).expectAfter seq).enterPhase .accumulating).Inv := by
  obtain ⟨hparams, hwf, hwithin, _⟩ := h
  exact ⟨hparams, hwf, hwithin, fun _ => ⟨hl, hc⟩⟩

/-- What an accepted leading frame writes ends within the capacity when its packet does (R104). -/
theorem length_take_leadSpan_le {length : Half} {cap : Nat} (h : length.toNat ≤ cap) (body : List Byte) :
    0 + (body.take (leadSpan length)).length ≤ cap := by
  simp only [List.length_take, leadSpan]
  omega

theorem State.Inv.rxFrame {s : State} (h : s.Inv) (caller : Caller) (frame : List Byte) :
    (rxFrame caller frame s).Inv := by
  apply rxFrame_of_ends caller frame s State.Inv
  case reject => exact fun _ _ => h.emit _
  case orphan => exact fun _ _ => h
  case leadDone =>
    intro _ hcap _ _
    exact (h.storeAt (length_take_leadSpan_le hcap _)).complete_latchLead _ _ _ _
  case leadOpen =>
    intro _ hcap _ hl
    exact ((h.storeAt (length_take_leadSpan_le hcap _)).accumulate_latchLead _ _ hl hcap).emit _
  case contDone =>
    intro _ _ hend _
    have hstored := h.storeAt hend
    exact State.Inv.complete (s := acceptCont _ _ _ s) hstored _
  case contOpen =>
    intro _ _ hend _
    exact h.storeAt hend

theorem State.Inv.receiveFrom {s : State} (h : s.Inv) (caller : Caller) (frames : List (List Byte)) :
    (receiveFrom caller frames s).Inv := by
  induction frames generalizing s with
  | nil => exact h
  | cons frame rest ih => exact ih (h.rxFrame caller frame)

theorem State.Inv.exec {s t : State} {i : Instr} (h : s.Inv) (he : exec i s = .next t) : t.Inv := by
  rcases exec_cases he with ⟨payload, tag, hs⟩ | ⟨_, rfl⟩ | ⟨frame, _, rfl⟩
  · obtain ⟨m, x, turns, calls, outs, rfl⟩ := exec_segments_around hs he
    exact (h.receiveFrom .sink _).around x _ turns calls outs
  · exact h.clearRegisters.emit _
  · exact h.rxFrame .driver frame

/-- Settles O39: a step holds its state, runs one instruction or turns a request away, and each keeps the invariant. -/
theorem stepKeepsInvariant : Obligations.StepKeepsInvariant := by
  intro s t h hstep
  rcases step_cases hstep with ⟨_, rfl⟩ | ⟨i, he⟩ | ⟨r, rfl⟩
  · exact h
  · exact h.dropRequest.exec he
  · exact h.dropRequest.emit _

/-! ## `outSeqNum` -/

/-- No `RX.FRAME` reads or writes `outSeqNum` (R51). -/
theorem rxFrame_with_outSeqNum (caller : Caller) (frame : List Byte) (s : State) (x : Byte) :
    rxFrame caller frame { s with outSeqNum := x } = { rxFrame caller frame s with outSeqNum := x } := by
  obtain ⟨new, hout, hother⟩ := rxFrame_around caller frame s
  have haround := hother x s.pending s.sinkTurns s.sinkCalls s.outputs
  simp only [State.around, ← hout] at haround
  rw [haround]
  ext1 <;> simp

/-- A finished `SEG.*` has counted each frame it handed over. -/
theorem exec_segments_outSeqNum {s t : State} {i : Instr} {payload : List Byte} {tag : Nibble}
    (hs : Segments s i payload tag) (h : exec i s = .next t) :
    t.outSeqNum = s.outSeqNum + BitVec.ofNat 8 (framesIn (newOutputs s t)).length := by
  obtain ⟨m, hseq, hframes⟩ := exec_segments_numbers hs h
  simpa [hframes] using hseq

/-- Frame j handed over has `S0 + j` in byte 0. -/
theorem exec_segments_frameSeq {s t : State} {i : Instr} {payload : List Byte} {tag : Nibble}
    (hs : Segments s i payload tag) (h : exec i s = .next t) {j : Nat} {frame : List Byte}
    (hj : (framesIn (newOutputs s t))[j]? = some frame) : frameSeq frame = s.outSeqNum + BitVec.ofNat 8 j := by
  obtain ⟨m, _, hframes⟩ := exec_segments_numbers hs h
  rw [hframes, List.getElem?_map] at hj
  obtain ⟨k, hk, rfl⟩ := Option.map_eq_some_iff.mp hj
  obtain ⟨_, rfl⟩ := List.getElem?_eq_some_iff.mp hk
  simp

theorem exec_receives_outSeqNum {s t : State} {i : Instr} {frame : List Byte} (hr : Receives i frame)
    (h : exec i s = .next t) : t.outSeqNum = s.outSeqNum := by
  rw [exec_receives hr] at h
  cases h
  exact rxFrame_outSeqNum .driver frame s

/-- `RESET` and every instruction that receives a frame do the same whatever `outSeqNum` holds. -/
theorem exec_ignores_outSeqNum {s t : State} {i : Instr} (x : Byte)
    (hi : ∀ payload, i ≠ .segReport payload ∧ i ≠ .segSchema payload) (h : exec i s = .next t) :
    ∃ y, exec i { s with outSeqNum := x } = .next { t with outSeqNum := y } := by
  rcases exec_cases h with ⟨payload, tag, ⟨rfl, _⟩ | ⟨rfl, _⟩⟩ | ⟨rfl, rfl⟩ | ⟨frame, hr, rfl⟩
  · exact absurd rfl (hi payload).1
  · exact absurd rfl (hi payload).2
  · exact ⟨0x00, rfl⟩
  · exact ⟨x, by rw [exec_receives hr, rxFrame_with_outSeqNum]⟩

/-- Settles O42: by the constructor of the instruction, from what a finished `SEG.*` has handed over. -/
theorem outSeqNumBelongsToTheSegmenter : Obligations.OutSeqNumBelongsToTheSegmenter := by
  refine ⟨fun s t i h => ?writers, fun s t i x hi h => exec_ignores_outSeqNum x hi h,
    fun s t i payload tag hs h j frame hj => exec_segments_frameSeq hs h hj⟩
  case writers =>
    cases i with
    | segReport payload => exact exec_segments_outSeqNum (payload := payload) (.inl ⟨rfl, rfl⟩) h
    | segSchema payload => exact exec_segments_outSeqNum (payload := payload) (.inr ⟨rfl, rfl⟩) h
    | rxFrame frame => exact exec_receives_outSeqNum (.inl rfl) h
    | reset =>
      cases h
      rfl
    | frameLead _ _ _ _ _ => exact exec_receives_outSeqNum (.inr rfl) h
    | frameCont _ _ _ _ _ _ => exact exec_receives_outSeqNum (.inr rfl) h

/-! ## The writers of the reassembler's registers -/

/-- The two outcomes of `RX.FRAME`: a rejection, whose only trace is its result (R132), or an acceptance, in which only
a leading frame latches `declLen` and `rxKind` (R104, R105). -/
theorem rxFrame_rejects_or_accepts (caller : Caller) (frame : List Byte) (s : State) :
    (∃ st, rxFrame caller frame s = s.emit (.returned caller (.rx st false))) ∨
    ((∃ c, (rxFrame caller frame s).outputs.getLast? = some (.returned caller (.rx .ok c))) ∧
      (frameIsCont frame = true →
        (rxFrame caller frame s).declLen = s.declLen ∧ (rxFrame caller frame s).rxKind = s.rxKind)) := by
  apply rxFrame_of_ends caller frame s (fun t => (∃ st, t = s.emit (.returned caller (.rx st false))) ∨
    ((∃ c, t.outputs.getLast? = some (.returned caller (.rx .ok c))) ∧
      (frameIsCont frame = true → t.declLen = s.declLen ∧ t.rxKind = s.rxKind)))
  case reject => exact fun st _ => .inl ⟨st, rfl⟩
  case orphan => exact fun _ _ => .inr ⟨⟨false, by simp⟩, fun _ => ⟨rfl, rfl⟩⟩
  case leadDone => exact fun hlead _ _ _ => .inr ⟨⟨true, by simp⟩, by simp [hlead]⟩
  case leadOpen => exact fun hlead _ _ _ => .inr ⟨⟨false, by simp⟩, by simp [hlead]⟩
  case contDone => exact fun _ _ _ _ => .inr ⟨⟨true, by simp⟩, fun _ => ⟨rfl, rfl⟩⟩
  case contOpen => exact fun _ _ _ _ => .inr ⟨⟨false, by simp⟩, fun _ => ⟨rfl, rfl⟩⟩

/-- Settles O43: a `SEG.*` changes only the surroundings, `RESET` is the writer named, and a frame that changes anything
was accepted. -/
theorem reassemblerRegistersHaveOnlyTheirWriters : Obligations.ReassemblerRegistersHaveOnlyTheirWriters := by
  intro s t i hq h
  rcases exec_cases h with ⟨payload, tag, hs⟩ | ⟨rfl, rfl⟩ | ⟨frame, hr, rfl⟩
  · obtain ⟨x, turns, calls, outs, rfl⟩ := exec_segments_quiet hs hq h
    simp [State.around]
  · exact ⟨fun _ => .inl rfl, fun _ => .inl rfl, by simp⟩
  · rcases rxFrame_rejects_or_accepts .driver frame s with ⟨st, hrej⟩ | ⟨⟨c, hlast⟩, hlatch⟩
    · simp [hrej]
    · refine ⟨fun hne => .inr ?_, fun _ => .inr ⟨frame, c, hr, hlast⟩, fun _ => ⟨frame, c, hr, hlast⟩⟩
      cases hc : frameIsCont frame with
      | false => exact ⟨frame, c, hr, hc, hlast⟩
      | true =>
        obtain ⟨hdecl, hkind⟩ := hlatch hc
        exact absurd hne (by simp [hdecl, hkind])

end Sys2Proof.Machine
end

section
/-! PROOFS. The memory family: what one step runs (R47, R50), which bytes a finished `SEG.*` has sent out (R41, R42, R46),
and that the two halves of the FSR share no state (R51). -/

namespace Sys2Proof.Machine

open Sys2Proof

/-! ## Which instruction a step runs -/

/-- Settles O2: the request is taken off the queue before its instruction runs. -/
theorem stepRunsDecodedRequest : Obligations.StepRunsDecodedRequest := by
  intro s r rest i hp hd
  rw [step_instr hp hd, State.dropRequest_eq hp]

/-- What a source frame decodes to: a length error outside 4 to 255 bytes, and else an instruction that receives it. -/
theorem decode_source_cases (frame : List Byte) :
    ((frame.length < 4 ∨ 255 < frame.length) ∧ decode ⟨.source, frame⟩ = .error (.frameLength frame.length)) ∨
    ∃ i, decode ⟨.source, frame⟩ = .ok i ∧ Receives i frame := by
  by_cases hlen : frame.length < 4 ∨ 255 < frame.length
  · exact .inl ⟨hlen, decodeFrame_lengthError hlen⟩
  · have h4 : 4 ≤ frame.length := by omega
    have h255 : frame.length ≤ 255 := by omega
    cases hc : frameIsCont frame with
    | false =>
      exact .inr ⟨_, decodeFrame_lead h4 h255 hc, .inr (congrArg (Request.mk .source) (leadBytes_eta frame h4 hc))⟩
    | true =>
      exact .inr ⟨_, decodeFrame_cont h4 h255 hc, .inr (congrArg (Request.mk .source) (contBytes_eta frame h4 hc))⟩

/-- R47: a step on a frame of the byte-source is `RX.FRAME` of it, whether or not the frame decodes. -/
theorem step_source {s : State} {frame : List Byte} {rest : List Request} (hp : s.pending = ⟨.source, frame⟩ :: rest) :
    step s = .next (rxFrame .driver frame { s with pending := rest }) := by
  rw [← State.dropRequest_eq hp]
  rcases decode_source_cases frame with ⟨hlen, hd⟩ | ⟨i, hd, hr⟩
  · rw [step_reject hp hd, rxFrame_malformed hlen]
    rfl
  · rw [step_instr hp hd, exec_receives hr]

/-- Settles O5: the step is `RX.FRAME` of the frame, and `RX.FRAME` only answers a frame of a wrong length. -/
theorem stepOnSourceFrameIsRxFrame : Obligations.StepOnSourceFrameIsRxFrame := by
  intro s frame rest hp
  refine ⟨step_source hp, fun hlen => ?_⟩
  rw [step_source hp, rxFrame_malformed hlen]
  rfl

/-! ## The frames of a packet -/

section
variable {payload : List Byte} {tag : Nibble} {s0 : Byte}

theorem length_packetFrame (k : Nat) :
    (packetFrame payload tag s0 k).length = 4 + min 251 (payload.length - 251 * k) := by
  rw [← segFrame_eq, length_segFrame]

theorem packet_getElem? {k : Nat} (hk : k < packetFrames payload.length) :
    (packet payload tag s0)[k]? = some (packetFrame payload tag s0 k) := by
  simp [packet, hk]

theorem eq_packetFrame_of_getElem? {k : Nat} {frame : List Byte} (h : (packet payload tag s0)[k]? = some frame) :
    frame = packetFrame payload tag s0 k := by
  have hk : k < packetFrames payload.length := by
    simpa [length_packet] using (List.getElem?_eq_some_iff.mp h).1
  exact Option.some.inj (h.symm.trans (packet_getElem? hk))

/-- Only frame 0 of a packet has the form of a leading frame (R81). -/
theorem packetFrame_isCont {k : Nat} (hk : k ≠ 0) : frameIsCont (packetFrame payload tag s0 k) = true := by
  rw [← segFrame_eq, segFrame_cont _ _ _ _ hk, contBytes_cont]

/-- R7 and R80: a payload that R7 lets through makes at most 256 frames. -/
theorem packetFrames_le {len : Nat} (h : len ≤ 64256) : packetFrames len ≤ 256 := by
  unfold packetFrames
  omega

/-- The frames of a packet have room for the whole payload. -/
theorem le_packetFrames (len : Nat) : len ≤ 251 * packetFrames len := by
  unfold packetFrames
  omega

theorem div_lt_packetFrames {n len : Nat} (h : n < len) : n / 251 < packetFrames len := by
  have := le_packetFrames len
  omega

/-! ## The bodies of a packet's frames (R42, R81) -/

/-- Byte n of the payload is body byte `n mod 251` of frame `n div 251`. -/
theorem packetFrame_body_getElem? (n : Nat) :
    (frameBody (packetFrame payload tag s0 (n / 251)))[n % 251]? = payload[n]? := by
  rw [packetFrame_body, segBody, List.getElem?_take_of_lt (Nat.mod_lt n (by decide)), List.getElem?_drop,
    Nat.div_add_mod]

theorem flatten_segBody (m : Nat) : ((List.range m).map (segBody payload)).flatten = payload.take (251 * m) := by
  induction m with
  | zero => simp
  | succ m ih =>
    rw [List.range_succ, List.map_append, List.flatten_append, ih, Nat.mul_succ, List.take_add]
    simp [segBody]

theorem flatten_packet_take {m : Nat} (hm : m ≤ packetFrames payload.length) :
    (((packet payload tag s0).take m).map frameBody).flatten = payload.take (251 * m) := by
  rw [packet_take payload tag s0 hm, List.map_map, ← flatten_segBody]
  congr 2
  funext j
  simp

theorem flatten_packet : ((packet payload tag s0).map frameBody).flatten = payload := by
  have h := flatten_packet_take (payload := payload) (tag := tag) (s0 := s0) (Nat.le_refl _)
  rwa [List.take_of_length_le (by rw [length_packet]), List.take_of_length_le (le_packetFrames _)] at h

/-! ## The declared length (R41) -/

theorem packetFrame_lengthBytes (h : payload.length ≤ 65535) :
    (frameByte (packetFrame payload tag s0 0) 2).toNat = payload.length % 256 ∧
    (frameByte (packetFrame payload tag s0 0) 3).toNat = payload.length / 256 := by
  have h2 : frameByte (packetFrame payload tag s0 0) 2 = BitVec.ofNat 8 (payload.length % 256) := rfl
  have h3 : frameByte (packetFrame payload tag s0 0) 3 = BitVec.ofNat 8 (payload.length / 256) := rfl
  rw [h2, h3, BitVec.toNat_ofNat, BitVec.toNat_ofNat]
  omega

end

/-! ## What a finished `SEG.*` has sent out -/

/-- From `s` to `t` a `SEG.*` operation has handed over the first `m` frames of its packet and, last of its outputs,
returned `st`, its one result to the driver. -/
structure SentOut (s t : State) (payload : List Byte) (tag : Nibble) (m : Nat) (st : Status) : Prop where
  count_le : m ≤ packetFrames payload.length
  frames : framesIn (newOutputs s t) = (packet payload tag s.outSeqNum).take m
  last : t.outputs.getLast? = some (.returned .driver (.status st))
  onlyResult : ∀ r, Output.returned .driver r ∈ newOutputs s t → r = .status st

/-- The three ends of R82, by what has been sent out. -/
theorem exec_segments_sentOut {s t : State} {i : Instr} {payload : List Byte} {tag : Nibble}
    (hs : Segments s i payload tag) (h : exec i s = .next t) :
    ∃ m st, SentOut s t payload tag m st ∧
      ((s.params.segMaxLen < payload.length ∧ m = 0 ∧ st = .payloadTooLarge payload.length) ∨
        (payload.length ≤ s.params.segMaxLen ∧
          ((m = packetFrames payload.length ∧ st = .ok) ∨ ∃ k, st = .sinkError k))) := by
  rcases exec_segments_next hs h with ⟨hl, rfl⟩ | ⟨hl, m, st, hm, _, _, _, rfl, hend⟩
  · exact ⟨0, .payloadTooLarge payload.length,
      ⟨Nat.zero_le _, by simp [newOutputs, framesIn, Output.frame?], by simp, by simp [newOutputs]⟩,
      .inl ⟨hl, rfl, rfl⟩⟩
  · obtain ⟨own, hout, hframes, hdriver, _⟩ :=
      handedOver_outputs (payload := payload) (tag := tag) (s0 := s.outSeqNum) m 0 s
    rw [← packet_take payload tag s.outSeqNum hm] at hframes
    have hnew : newOutputs s ((handedOver payload tag s.outSeqNum m 0 s).endWith st) =
        own ++ [.returned .driver (.status st)] := by
      simp [newOutputs, hout]
    refine ⟨m, st, ⟨hm, ?frames, by simp, ?onlyResult⟩, .inr ⟨hl, ?status⟩⟩
    case frames =>
      rw [hnew, framesIn_append, hframes]
      simp [framesIn, Output.frame?]
    case onlyResult =>
      intro r hr
      rw [hnew] at hr
      simpa [hdriver r] using hr
    case status =>
      rcases hend with ⟨hok, hall, _⟩ | ⟨herr, _⟩
      · exact .inl ⟨hall, hok⟩
      · exact .inr ⟨m - 1, herr⟩

section
variable {s t : State} {payload : List Byte} {tag : Nibble} {m : Nat} {st : Status}

theorem SentOut.length_frames (h : SentOut s t payload tag m st) : (framesIn (newOutputs s t)).length = m := by
  rw [h.frames, List.length_take, length_packet, Nat.min_eq_left h.count_le]

theorem SentOut.eq_packetFrame (h : SentOut s t payload tag m st) {k : Nat} {frame : List Byte}
    (hk : (framesIn (newOutputs s t))[k]? = some frame) : frame = packetFrame payload tag s.outSeqNum k := by
  rw [h.frames, List.getElem?_take] at hk
  split at hk
  · exact eq_packetFrame_of_getElem? hk
  · cases hk

theorem SentOut.exists_packetFrame (h : SentOut s t payload tag m st) {frame : List Byte}
    (hf : frame ∈ framesIn (newOutputs s t)) : ∃ k, frame = packetFrame payload tag s.outSeqNum k := by
  obtain ⟨k, hk⟩ := List.mem_iff_getElem?.mp hf
  exact ⟨k, h.eq_packetFrame hk⟩

end

/-- Settles O23: every frame is one of R81's table, and R7 keeps a packet within 256 of them; the one status returned is
`Ok`, `SinkError` or `PayloadTooLarge`. -/
theorem framesAreBoundedAndNeverTooLarge : Obligations.FramesAreBoundedAndNeverTooLarge := by
  intro s t i payload tag hwf hs h
  obtain ⟨m, st, hsent, hend⟩ := exec_segments_sentOut hs h
  refine ⟨fun frame hf => ?size, ?number, fun n hn => ?status⟩
  case size =>
    obtain ⟨k, rfl⟩ := hsent.exists_packetFrame hf
    rw [length_packetFrame]
    omega
  case number =>
    have hmax : s.params.segMaxLen ≤ 64256 := by
      simp only [Config.Params.wf, Config.maxPacket, Bool.and_eq_true, decide_eq_true_eq] at hwf
      omega
    rw [hsent.length_frames]
    rcases hend with ⟨_, rfl, _⟩ | ⟨hl, _⟩
    · exact Nat.zero_le _
    · exact hsent.count_le.trans (packetFrames_le (hl.trans hmax))
  case status =>
    have hst := hsent.onlyResult _ hn
    rcases hend with ⟨_, _, rfl⟩ | ⟨_, ⟨_, rfl⟩ | ⟨k, rfl⟩⟩ <;> cases hst

/-- Settles O25: the frames handed over are an initial run of the packet, and with `Ok` all of it. -/
theorem packetCarriesPayloadInOrder : Obligations.PacketCarriesPayloadInOrder := by
  refine ⟨fun s t i payload tag hs h => ?sent, fun payload tag s0 => ⟨fun n hn => ?byte, flatten_packet⟩⟩
  case byte => exact ⟨_, packet_getElem? (div_lt_packetFrames hn), packetFrame_body_getElem? n⟩
  case sent =>
    obtain ⟨m, st, hsent, hend⟩ := exec_segments_sentOut hs h
    have hjoined : ((framesIn (newOutputs s t)).map frameBody).flatten = payload.take (251 * m) := by
      rw [hsent.frames, flatten_packet_take hsent.count_le]
    refine ⟨fun n _ frame hframe => ?_, by rw [hjoined, hsent.length_frames], fun hok => ?_⟩
    · rw [hsent.eq_packetFrame hframe]
      exact packetFrame_body_getElem? n
    · have hst : st = .ok := by simpa [hsent.last] using hok
      obtain ⟨_, hall⟩ : payload.length ≤ s.params.segMaxLen ∧ m = packetFrames payload.length := by
        simpa [hst] using hend
      rw [hjoined, hall, List.take_of_length_le (le_packetFrames _)]

/-- Settles O26: the one leading frame of a packet is frame 0, and the decoder joins the same two bytes. -/
theorem declaredLengthIsLittleEndian : Obligations.DeclaredLengthIsLittleEndian := by
  refine ⟨fun s t i payload tag hs hlen h frame hf hlead => ?_, fun frame => toNat_half _ _⟩
  obtain ⟨m, st, hsent, _⟩ := exec_segments_sentOut hs h
  obtain ⟨k, rfl⟩ := hsent.exists_packetFrame hf
  by_cases hk : k = 0
  · subst hk
    exact packetFrame_lengthBytes hlen
  · rw [packetFrame_isCont hk] at hlead
    cases hlead

/-! ## The two halves share no state (R51) -/

/-- What a `SEG.*` sends out to a sink that makes no call: `m` frames, then its status. -/
def sentQuietly (payload : List Byte) (tag : Nibble) (s0 : Byte) (m : Nat) (st : Status) : List Output :=
  ((packet payload tag s0).take m).map .transmit ++ [.returned .driver (.status st)]

/-- The state after a `SEG.*` that handed `m` frames to a sink that makes no call: only the surroundings have changed. -/
def State.afterQuiet (s : State) (payload : List Byte) (tag : Nibble) (m : Nat) (st : Status) : State :=
  s.around (s.outSeqNum + BitVec.ofNat 8 m) s.pending (s.sinkTurns.drop m) (s.sinkCalls + m)
    (s.outputs ++ sentQuietly payload tag s.outSeqNum m st)

/-- The segmenter sees the same in both states: its register, the parameters and the sink. -/
structure SameForSegmenter (s u : State) : Prop where
  outSeqNum : u.outSeqNum = s.outSeqNum
  params : u.params = s.params
  sinkTurns : u.sinkTurns = s.sinkTurns
  sinkCalls : u.sinkCalls = s.sinkCalls

theorem SameForSegmenter.refl (s : State) : SameForSegmenter s s := ⟨rfl, rfl, rfl, rfl⟩

theorem sameForSegmenter_rxFrame (caller : Caller) (frame : List Byte) (s : State) :
    SameForSegmenter s (rxFrame caller frame s) := ⟨by simp, by simp, by simp, by simp⟩

section
variable {s u : State} {payload : List Byte} {tag : Nibble}

theorem SameForSegmenter.segments (h : SameForSegmenter s u) {i : Instr} (hs : Segments s i payload tag) :
    Segments u i payload tag := by
  simpa only [Segments, h.params] using hs

theorem SameForSegmenter.callsAt (h : SameForSegmenter s u) (j : Nat) : u.callsAt j = s.callsAt j := by
  simp only [State.callsAt, h.sinkTurns]

theorem SameForSegmenter.answer (h : SameForSegmenter s u) (j : Nat) : u.answer j = s.answer j := by
  simp only [State.answer, h.sinkTurns, h.sinkCalls]

theorem SameForSegmenter.servesOk (h : SameForSegmenter s u) {m : Nat} (hok : ServesOk s m) : ServesOk u m := by
  simpa only [ServesOk, h.callsAt, h.answer] using hok

theorem handedOver_endWith_quiet {m : Nat} (hm : m ≤ packetFrames payload.length) (hq : ∀ j < m, s.callsAt j = [])
    (st : Status) : (handedOver payload tag s.outSeqNum m 0 s).endWith st = s.afterQuiet payload tag m st := by
  rw [handedOver_quiet hm hq]
  simp [State.afterQuiet, State.around, State.emit, sentQuietly]

/-- With a sink that makes no call, a finished `SEG.*` does the same from every state in which the segmenter sees the
same. -/
theorem exec_segments_afterQuiet {t : State} {i : Instr} (hs : Segments s i payload tag)
    (hq : ∀ j < packetFrames payload.length, s.callsAt j = []) (h : exec i s = .next t) :
    ∃ m st, ∀ u, SameForSegmenter s u → exec i u = .next (u.afterQuiet payload tag m st) := by
  rcases exec_segments_next hs h with ⟨hl, _⟩ | ⟨hl, m, st, hm, hm0, hserved, hcalls, _, hend⟩
  · refine ⟨0, .payloadTooLarge payload.length, fun u hu => ?_⟩
    rw [exec_segments (hu.segments hs), segmentAndSend_tooLarge (hu.params ▸ hl)]
    simp [State.afterQuiet, State.around, State.emit, sentQuietly]
  · refine ⟨m, st, fun u hu => ?_⟩
    have huq : ∀ j < m, u.callsAt j = [] := fun j hj => by rw [hu.callsAt, hq j (by omega)]
    rw [exec_segments (hu.segments hs), segmentAndSend_sends (hu.params ▸ hl), frameCount_eq,
      ← handedOver_endWith_quiet hm huq]
    rcases hend with ⟨rfl, rfl, hall⟩ | ⟨rfl, herr⟩
    · exact sendFrames_allOk hm0 (hu.servesOk hall)
    · have hrefused := sendFrames_refusedAt (payload := payload) (tag := tag) (s0 := u.outSeqNum) (k := 0)
        (show m - 1 < packetFrames payload.length by omega) (hu.servesOk hserved)
        (by rwa [hu.callsAt]) (by rwa [hu.answer])
      rwa [Nat.zero_add, Nat.sub_add_cancel (by omega)] at hrefused

end

/-- Settles O45: `RX.FRAME` does not look at what `SEG.*` changes, and `SEG.*` sees the same before and after it. -/
theorem segmenterAndReassemblerCommute : Obligations.SegmenterAndReassemblerCommute := by
  intro s s1 s2 i payload frame tag hs hq h1 h2
  obtain ⟨m, st, hseg⟩ := exec_segments_afterQuiet hs hq h1
  obtain ⟨new, hnew, haround⟩ := rxFrame_around .driver frame s
  have hsame := sameForSegmenter_rxFrame .driver frame s
  have hs1 : s.afterQuiet payload tag m st = s1 := by simpa [h1] using (hseg s (.refl s)).symm
  subst hs1
  rw [exec_rxFrame, State.afterQuiet, haround] at h2
  cases h2
  refine ⟨_, _, exec_rxFrame s frame, hseg _ hsame, ?state, ?received, ?sent⟩
  case state => simp [State.afterQuiet, State.around]
  case received => simp [newOutputs, State.afterQuiet, State.around, hnew]
  case sent => simp [newOutputs, State.afterQuiet, State.around]

end Sys2Proof.Machine
end

section
/-! PROOFS. The encoding family: where the header's fields stand in H (R64), the bit that chooses the form (R65), the bits
without a meaning (R66), and the reserved selectors (R71). -/

namespace Sys2Proof

/-! ## R64's table: the fields of a frame as parts of H -/

/-- A join of words is a number in base `2 ^ n`, its right part the low digit. -/
theorem toNat_append_eq_add {m n : Nat} (hi : BitVec m) (lo : BitVec n) :
    (hi ++ lo).toNat = lo.toNat + 2 ^ n * hi.toNat := by
  rw [BitVec.toNat_append, ← Nat.shiftLeft_add_eq_or_of_lt lo.isLt, Nat.shiftLeft_eq, Nat.mul_comm, Nat.add_comm]

section
variable (frame : List Byte)

theorem toNat_headerWord :
    (headerWord frame).toNat = (frameByte frame 0).toNat + 256 * (frameByte frame 1).toNat +
      65536 * (frameByte frame 2).toNat + 16777216 * (frameByte frame 3).toNat := by
  have hlow := toNat_append_eq_add (frameByte frame 1) (frameByte frame 0)
  have hmid := toNat_append_eq_add (frameByte frame 2) (frameByte frame 1 ++ frameByte frame 0)
  have hall : (headerWord frame).toNat = _ :=
    toNat_append_eq_add (frameByte frame 3) (frameByte frame 2 ++ (frameByte frame 1 ++ frameByte frame 0))
  omega

theorem toNat_frameSeq : (frameSeq frame).toNat = (headerWord frame).toNat % 256 := by
  rw [toNat_headerWord, frameSeq]
  omega

theorem toNat_frameKind : (frameKind frame).toNat = (headerWord frame).toNat / 256 % 16 := by
  rw [toNat_headerWord, frameKind, BitVec.extractLsb'_toNat, Nat.shiftRight_eq_div_pow]
  omega

theorem frameIsCont_eq_decide : frameIsCont frame = decide ((headerWord frame).toNat / 4096 % 2 = 1) := by
  rw [toNat_headerWord, frameIsCont, BitVec.getLsbD, Nat.testBit_eq_decide_div_mod_eq, decide_eq_decide]
  omega

theorem toNat_frameReserved : (frameReserved frame).toNat = (headerWord frame).toNat / 8192 % 8 := by
  rw [toNat_headerWord, frameReserved, BitVec.extractLsb'_toNat, Nat.shiftRight_eq_div_pow]
  omega

theorem toNat_frameLength : (frameLength frame).toNat = (headerWord frame).toNat / 65536 := by
  rw [toNat_headerWord, frameLength, toNat_half]
  omega

theorem toNat_frameUnused : (frameUnused frame).toNat = (headerWord frame).toNat / 65536 % 256 := by
  rw [toNat_headerWord, frameUnused]
  omega

theorem toNat_frameLeadRef : (frameLeadRef frame).toNat = (headerWord frame).toNat / 16777216 := by
  rw [toNat_headerWord, frameLeadRef]
  omega

/-- R65: what the mask of bit 12 leaves of H is the continuation flag. -/
theorem headerWord_and_bit12 :
    headerWord frame &&& 0x00001000 = if frameIsCont frame then 0x00001000 else 0x00000000 := by
  have hbit : (headerWord frame).getLsbD 12 = frameIsCont frame := by
    rw [frameIsCont_eq_decide, BitVec.getLsbD, Nat.testBit_eq_decide_div_mod_eq]
  rw [← hbit]
  exact BitVec.and_twoPow (headerWord frame) 12

end

/-- Settles O10: bit 12 of H is the continuation flag, and each of its values has its case of the decoder. -/
theorem headerBit12ChoosesTheForm : Obligations.HeaderBit12ChoosesTheForm := by
  intro frame h4 h255
  rw [headerWord_and_bit12]
  cases hc : frameIsCont frame with
  | false => exact ⟨.inl rfl, fun _ => ⟨_, _, _, _, _, decodeFrame_lead h4 h255 hc⟩, by simp⟩
  | true => exact ⟨.inr rfl, by simp, fun _ => ⟨_, _, _, _, _, _, decodeFrame_cont h4 h255 hc⟩⟩

/-- Settles O11: the decoder takes the fields of R68 from the frame, and each of them is where R64's table has it. -/
theorem headerFieldsStandWhereTheTableSays : Obligations.HeaderFieldsStandWhereTheTableSays := by
  intro h0 h1 h2 h3 body h hbody hh
  let frame := h0 :: h1 :: h2 :: h3 :: body
  have h4 : 4 ≤ frame.length := by simp [frame]
  have h255 : frame.length ≤ 255 := by
    simp only [frame, List.length_cons]
    omega
  obtain rfl : h = (headerWord frame).toNat := hh.trans (toNat_headerWord frame).symm
  refine ⟨fun hlead => ⟨_, _, _, _, decodeFrame_lead h4 h255 ?leadForm, ?leadFields⟩,
    fun hcont => ⟨_, _, _, _, _, decodeFrame_cont h4 h255 ?contForm, ?contFields⟩⟩
  case leadForm => exact (frameIsCont_eq_decide frame).trans (decide_eq_false (by omega))
  case leadFields =>
    exact ⟨toNat_frameSeq frame, toNat_frameKind frame, toNat_frameReserved frame, toNat_frameLength frame⟩
  case contForm => exact (frameIsCont_eq_decide frame).trans (decide_eq_true hcont)
  case contFields =>
    exact ⟨toNat_frameSeq frame, toNat_frameKind frame, toNat_frameReserved frame, toNat_frameUnused frame,
      toNat_frameLeadRef frame⟩

end Sys2Proof

namespace Sys2Proof.Machine

open Sys2Proof

/-! ## The bits without a meaning (R66) -/

section
variable (payload : List Byte) (tag : Nibble) (s0 : Byte) (k : Nat)

theorem packetFrame_reserved : frameReserved (packetFrame payload tag s0 k) = 0 := by
  rw [← segFrame_eq, segFrame]
  split <;> simp

theorem packetFrame_unused (hc : frameIsCont (packetFrame payload tag s0 k) = true) :
    frameUnused (packetFrame payload tag s0 k) = 0x00 := by
  rw [← segFrame_eq] at hc ⊢
  by_cases hk : k = 0
  · subst hk
    simp [segFrame_lead] at hc
  · rw [segFrame_cont _ _ _ _ hk, contBytes_unused]

end

/-- Settles O27: every frame handed over is one of R81's table, and on receive `RX.FRAME` is the frame form that the frame
encodes, whose meaning does not look at the reserved bits nor at the unused byte. -/
theorem reservedBitsAreZeroOutAndIgnoredIn : Obligations.ReservedBitsAreZeroOutAndIgnoredIn := by
  refine ⟨fun s t i payload tag hs h frame hf => ?sent, fun s seq kindTag length body r r' => ?lead,
    fun s seq leadRef kindTag body r r' u u' => ?cont⟩
  case sent =>
    obtain ⟨m, st, hsent, _⟩ := exec_segments_sentOut hs h
    obtain ⟨k, rfl⟩ := hsent.exists_packetFrame hf
    exact ⟨packetFrame_reserved payload tag _ k, packetFrame_unused payload tag _ k⟩
  case lead =>
    have hform : exec (.frameLead seq kindTag r length body) s = exec (.frameLead seq kindTag r' length body) s := rfl
    refine ⟨?_, hform⟩
    rwa [exec_frameLead, exec_frameLead] at hform
  case cont =>
    have hform : exec (.frameCont seq kindTag r u leadRef body) s =
      exec (.frameCont seq kindTag r' u' leadRef body) s := rfl
    refine ⟨?_, hform⟩
    rwa [exec_frameCont, exec_frameCont] at hform

/-! ## The reserved selectors (R71) -/

theorem decodeCommand_reserved {op : Byte} (operand : List Byte) (h10 : op ≠ 0x10) (h11 : op ≠ 0x11) (h20 : op ≠ 0x20)
    (hF0 : op ≠ 0xF0) : decodeCommand (op :: operand) = .error (.reservedSelector op) := by
  rw [decodeCommand, if_neg h10, if_neg h11, if_neg h20, if_neg hF0]

/-- Settles O4: no arm of the command decoder takes the selector, and the machine only answers the rejection; the count
runs through the 256 selectors. -/
theorem reservedSelectorReturnsIllegalCommand : Obligations.ReservedSelectorReturnsIllegalCommand := by
  refine ⟨fun s op operand rest h10 h11 h20 hF0 hp => ?_, by decide +kernel⟩
  rw [step_reject hp (decodeCommand_reserved operand h10 h11 h20 hF0), State.dropRequest_eq hp]
  rfl

end Sys2Proof.Machine
end

section
/-! PROOFS. The segmenter family: the number of frames (R80), every ending of `SEG.*` (R82, R87), its frame (R51), and the
sequence numbers of a packet (R86). -/

namespace Sys2Proof.Machine

open Sys2Proof

/-! ## The number of frames (R80) -/

theorem packetFrames_of_lt {len : Nat} (h : len < 251) : packetFrames len = 1 := by
  unfold packetFrames
  omega

theorem packetFrames_of_ge {len : Nat} (h : 251 ≤ len) :
    packetFrames len = len / 251 + (if len % 251 ≠ 0 then 1 else 0) := by
  unfold packetFrames
  split <;> omega

theorem packetFrames_ne_zero (len : Nat) : packetFrames len ≠ 0 := frameCount_eq len ▸ frameCount_ne_zero len

/-- Settles O15: the machine's form of N(L) is R80's, branch by branch. -/
theorem frameCountIsCeiling : Obligations.FrameCountIsCeiling :=
  fun len => ⟨frameCount_eq len, packetFrames_of_lt, packetFrames_of_ge⟩

/-! ## A payload over `SEG_MAX_LEN` (R70, R82) -/

theorem exec_segments_tooLarge {s : State} {i : Instr} {payload : List Byte} {tag : Nibble}
    (hs : Segments s i payload tag) (hl : s.params.segMaxLen < payload.length) :
    exec i s = .next (s.emit (.returned .driver (.status (.payloadTooLarge payload.length)))) := by
  rw [exec_segments hs, segmentAndSend_tooLarge hl]

/-- The two selectors of `SEG.*` differ in the instruction they make of a payload, and both segment it. -/
theorem decode_segCommand {op : Byte} (hop : op = 0x10 ∨ op = 0x11) (payload : List Byte) (s : State) :
    ∃ make tag, decode ⟨.command, op :: payload⟩ = decodePayload make payload ∧
      Segments s (make payload) payload tag := by
  rcases hop with rfl | rfl
  · exact ⟨.segReport, s.params.kindReport, rfl, .inl ⟨rfl, rfl⟩⟩
  · exact ⟨.segSchema, s.params.kindSchema, rfl, .inr ⟨rfl, rfl⟩⟩

/-- Settles O7: a payload over R70's 65535 bytes is turned away by the decoder, any other by the operation, with the same
status. -/
theorem stepOnOversizedPayloadSendsNothing : Obligations.StepOnOversizedPayloadSendsNothing := by
  intro s rest op payload _ hop hl hp
  obtain ⟨make, tag, hd, hs⟩ := decode_segCommand hop payload s.dropRequest
  rw [decodePayload] at hd
  split at hd
  case isTrue =>
    rw [step_reject hp hd, State.dropRequest_eq hp]
    rfl
  case isFalse =>
    rw [step_instr hp hd, exec_segments_tooLarge hs hl, State.dropRequest_eq hp]
    rfl

/-! ## Every ending (R82) -/

section
variable {s t : State} {i : Instr} {payload : List Byte} {tag : Nibble}

theorem exec_segments_sends (hs : Segments s i payload tag) (hl : payload.length ≤ s.params.segMaxLen) :
    exec i s = sendFrames payload tag s.outSeqNum (packetFrames payload.length) 0 s := by
  rw [exec_segments hs, segmentAndSend_sends hl, frameCount_eq]

/-- Every answer `Ok`: the whole packet goes out. -/
theorem exec_segments_allOk (hs : Segments s i payload tag) (hl : payload.length ≤ s.params.segMaxLen)
    (hok : ServesOk s (packetFrames payload.length)) :
    exec i s = .next ((handedOver payload tag s.outSeqNum (packetFrames payload.length) 0 s).endWith .ok) := by
  rw [exec_segments_sends hs hl, sendFrames_allOk (packetFrames_ne_zero _) hok]

/-- The first `SinkError` is the answer to frame `k`: frames 0 to `k` go out. -/
theorem exec_segments_refusedAt (hs : Segments s i payload tag) (hl : payload.length ≤ s.params.segMaxLen) {k : Nat}
    (hk : k < packetFrames payload.length) (hok : ServesOk s k) (hc : OnlyFrames (s.callsAt k))
    (herr : s.answer k = some .sinkError) :
    exec i s = .next ((handedOver payload tag s.outSeqNum (k + 1) 0 s).endWith (.sinkError k)) := by
  rw [exec_segments_sends hs hl, sendFrames_refusedAt hk hok hc herr, Nat.zero_add]

/-- A turn without calls makes no call but `RX.FRAME`. -/
theorem onlyFrames_of_quiet {j : Nat} (h : s.callsAt j = []) : OnlyFrames (s.callsAt j) := h ▸ onlyFrames_nil

theorem State.afterQuiet_eq (s : State) (m : Nat) (st : Status) :
    s.afterQuiet payload tag m st = { s with
      outSeqNum := s.outSeqNum + BitVec.ofNat 8 m
      sinkTurns := s.sinkTurns.drop m
      sinkCalls := s.sinkCalls + m
      outputs := s.outputs ++ ((packet payload tag s.outSeqNum).take m).map .transmit
        ++ [.returned .driver (.status st)] } := by
  rw [List.append_assoc]
  rfl

end

/-- Settles O16: by the ending, each with the state after handing over that many frames to a sink that makes no call. -/
theorem segmentAndSendEffect : Obligations.SegmentAndSendEffect := by
  intro s i payload tag hs
  refine ⟨exec_segments_tooLarge hs, fun hl => ⟨fun hok => ?allOk, fun k hk hq hok herr => ?refused⟩⟩
  case allOk =>
    have hserves : ServesOk s (packetFrames payload.length) :=
      fun j hj => ⟨onlyFrames_of_quiet (hok j hj).1, (hok j hj).2⟩
    rw [exec_segments_allOk hs hl hserves, handedOver_endWith_quiet (Nat.le_refl _) fun j hj => (hok j hj).1,
      State.afterQuiet_eq, List.take_of_length_le (length_packet ..).le]
  case refused =>
    have hserves : ServesOk s k := fun j hj => ⟨onlyFrames_of_quiet (hq j (by omega)), hok j hj⟩
    rw [exec_segments_refusedAt hs hl hk hserves (onlyFrames_of_quiet (hq k (Nat.le_refl k))) herr,
      handedOver_endWith_quiet hk fun j hj => hq j (by omega), State.afterQuiet_eq]

/-! ## What a finished `SEG.*` says of the sink's answers (R82, R87) -/

section
variable {s t : State} {i : Instr} {payload : List Byte} {tag : Nibble}

/-- Handing over the first `m` frames of a packet and returning a status, whatever the sink's code calls. -/
theorem framesIn_handedOver_endWith {m : Nat} (hm : m ≤ packetFrames payload.length) (st : Status) :
    framesIn (newOutputs s ((handedOver payload tag s.outSeqNum m 0 s).endWith st)) =
      (packet payload tag s.outSeqNum).take m := by
  obtain ⟨own, hout, hframes, _, _⟩ :=
    handedOver_outputs (payload := payload) (tag := tag) (s0 := s.outSeqNum) m 0 s
  have hnew : newOutputs s ((handedOver payload tag s.outSeqNum m 0 s).endWith st) =
      own ++ [.returned .driver (.status st)] := by
    simp [newOutputs, hout]
  rw [hnew, framesIn_append, hframes, packet_take payload tag s.outSeqNum hm]
  exact List.append_nil _

/-- The three ends of R82, by the frames handed over, the status returned and the answers that led there. -/
theorem exec_segments_answers (hs : Segments s i payload tag) (h : exec i s = .next t) :
    ∃ m st, m ≤ packetFrames payload.length ∧
      framesIn (newOutputs s t) = (packet payload tag s.outSeqNum).take m ∧
      t.outputs.getLast? = some (.returned .driver (.status st)) ∧ ServesOk s (m - 1) ∧
      ((s.params.segMaxLen < payload.length ∧ m = 0 ∧ st = .payloadTooLarge payload.length) ∨
        (m = packetFrames payload.length ∧ st = .ok) ∨
        ∃ k, m = k + 1 ∧ st = .sinkError k ∧ s.answer k = some .sinkError) := by
  rcases exec_segments_next hs h with ⟨hl, rfl⟩ | ⟨_, m, st, hm, hm0, hserved, _, rfl, hend⟩
  · exact ⟨0, _, Nat.zero_le _, by simp [newOutputs, framesIn, Output.frame?], by simp, by simp [ServesOk],
      .inl ⟨hl, rfl, rfl⟩⟩
  · refine ⟨m, st, hm, framesIn_handedOver_endWith hm st, by simp, hserved, .inr ?_⟩
    rcases hend with ⟨hok, hall, _⟩ | ⟨hst, herr⟩
    · exact .inl ⟨hall, hok⟩
    · exact .inr ⟨m - 1, by omega, hst, herr⟩

/-- A sink that answers every coming call and whose code calls nothing but `RX.FRAME` lets the operation finish. -/
theorem exec_segments_completes (hs : Segments s i payload tag)
    (hsink : ∀ j < packetFrames payload.length, s.answer j ≠ none ∧ OnlyFrames (s.callsAt j)) :
    ∃ t, exec i s = .next t := by
  by_cases hl : s.params.segMaxLen < payload.length
  · exact ⟨_, exec_segments_tooLarge hs hl⟩
  · have hl' : payload.length ≤ s.params.segMaxLen := by omega
    rcases servesOk_or_first s (packetFrames payload.length) with hok | ⟨k, hk, hok, hfirst⟩
    · exact ⟨_, exec_segments_allOk hs hl' hok⟩
    · obtain ⟨hanswer, hcalls⟩ := hsink k hk
      have herr : s.answer k = some .sinkError := by
        match ha : s.answer k with
        | none => exact absurd ha hanswer
        | some .ok => exact absurd ⟨hcalls, ha⟩ hfirst
        | some .sinkError => rfl
      exact ⟨_, exec_segments_refusedAt hs hl' hk hok hcalls herr⟩

end

/-- Settles O17: the frames handed over are an initial run of the packet, and every turn but the last served. -/
theorem framesGoOutInOrderAfterOk : Obligations.FramesGoOutInOrderAfterOk := by
  intro s t i payload tag hs h
  obtain ⟨m, _, hm, hframes, _, hserved, _⟩ := exec_segments_answers hs h
  exact ⟨m, hm, hframes, fun j hj => (hserved j (by omega)).2⟩

/-- Settles O18: the operation finishes, and its status is one of the three of R82. -/
theorem segmenterCompletesWheneverTheSinkAnswers : Obligations.SegmenterCompletesWheneverTheSinkAnswers := by
  intro s i payload tag hs hsink
  obtain ⟨t, h⟩ := exec_segments_completes hs hsink
  obtain ⟨m, st, hm, hframes, hlast, _, hend⟩ := exec_segments_answers hs h
  refine ⟨t, st, h, hlast, exec_segments_outSeqNum hs h, ?_⟩
  rw [hframes]
  rcases hend with ⟨hl, rfl, rfl⟩ | ⟨_, rfl⟩ | ⟨k, rfl, rfl, herr⟩
  · exact .inr (.inr ⟨rfl, hl, List.take_zero⟩)
  · exact .inl rfl
  · exact .inr (.inl ⟨k, rfl, by rw [List.length_take, length_packet, Nat.min_eq_left hm], herr⟩)

/-! ## What `SEG.*` leaves alone (R51) -/

/-- Frames and one status: no `Dispatch`. -/
theorem isDispatch_of_mem_sentQuietly {payload : List Byte} {tag : Nibble} {s0 : Byte} {m : Nat} {st : Status}
    {o : Output} (h : o ∈ sentQuietly payload tag s0 m st) : o.isDispatch = false := by
  rcases List.mem_append.mp h with h | h
  · obtain ⟨frame, _, rfl⟩ := List.mem_map.mp h
    rfl
  · rw [List.mem_singleton.mp h]
    rfl

theorem newOutputs_afterQuiet (s : State) (payload : List Byte) (tag : Nibble) (m : Nat) (st : Status) :
    newOutputs s (s.afterQuiet payload tag m st) = sentQuietly payload tag s.outSeqNum m st :=
  List.drop_left

/-- Settles O22: only the surroundings have changed. -/
theorem segmenterLeavesReassemblerAlone : Obligations.SegmenterLeavesReassemblerAlone := by
  intro s t i payload tag hs hq h
  obtain ⟨m, st, hquiet⟩ := exec_segments_afterQuiet hs hq h
  have ht : t = s.afterQuiet payload tag m st := Host.Outcome.next.inj (h.symm.trans (hquiet s (.refl s)))
  subst ht
  refine ⟨⟨rfl, rfl, rfl, rfl, fun _ => rfl⟩, rfl, rfl, rfl, fun o ho => ?_⟩
  rw [newOutputs_afterQuiet] at ho
  exact isDispatch_of_mem_sentQuietly ho

/-! ## The sequence numbers of a packet (R86) -/

section
variable {payload : List Byte} {tag : Nibble} {s0 : Byte}

theorem packetFrame_seq (k : Nat) : frameSeq (packetFrame payload tag s0 k) = s0 + BitVec.ofNat 8 k := rfl

/-- A continuation frame refers back to the leading frame's number. -/
theorem packetFrame_leadRef {k : Nat} (hk : k ≠ 0) : frameLeadRef (packetFrame payload tag s0 k) = s0 := by
  rw [← segFrame_eq, segFrame_cont _ _ _ _ hk, contBytes_leadRef]

/-- Two of at most 256 frames differ in their numbers, the wrap of the counter included. -/
theorem packetFrame_seq_ne {j k : Nat} (hj : j < k) (hk : k < 256) :
    frameSeq (packetFrame payload tag s0 j) ≠ frameSeq (packetFrame payload tag s0 k) := by
  rw [packetFrame_seq, packetFrame_seq]
  intro h
  have hnat := congrArg BitVec.toNat (BitVec.add_right_inj s0 |>.mp h)
  simp only [BitVec.toNat_ofNat] at hnat
  omega

theorem packetFrame_fragIdx {k : Nat} (hk0 : k ≠ 0) (hk : k < 256) :
    fragIdx (frameSeq (packetFrame payload tag s0 k)) (frameLeadRef (packetFrame payload tag s0 k)) = k := by
  rw [packetFrame_seq, packetFrame_leadRef hk0, fragIdx, BitVec.add_comm, BitVec.add_sub_cancel, BitVec.toNat_ofNat]
  exact Nat.mod_eq_of_lt hk

end

/-- Settles O24: the frames handed over are the first of R81's table, and R7 keeps a packet within the 256 numbers. -/
theorem packetSequenceNumbersAreDistinct : Obligations.PacketSequenceNumbersAreDistinct := by
  refine ⟨fun s t i payload tag hs hlen h k frame hframe => ?sent, fun payload tag s0 hlen k hk => ?table⟩
  case table =>
    have hk256 : k < 256 := hk.trans_le (packetFrames_le hlen)
    exact ⟨fun j hj => packetFrame_seq_ne hj hk256, fun hk0 => packetFrame_fragIdx hk0 hk256⟩
  case sent =>
    obtain ⟨m, st, hsent, _⟩ := exec_segments_sentOut hs h
    have hkm : k < m := hsent.length_frames ▸ (List.getElem?_eq_some_iff.mp hframe).1
    have hk256 : k < 256 := hkm.trans_le (hsent.count_le.trans (packetFrames_le hlen))
    rw [hsent.eq_packetFrame hframe]
    refine ⟨fun j hj earlier hearlier => ?_, fun hk0 => ⟨packetFrame_isCont hk0, packetFrame_fragIdx hk0 hk256⟩⟩
    rw [hsent.eq_packetFrame hearlier]
    exact packetFrame_seq_ne hj hk256

end Sys2Proof.Machine
end

section
/-! PROOFS. The reassembler family: the acceptance rule (R101, R103), the effect of the two frame forms (R104, R105), the
frames that are accepted (R106), completion (R107, R109), the frame of `RX.FRAME`, the tag without a use (R111), and what a
receiver makes of a whole packet (R113) and of one with a lost frame (R114). -/

namespace Sys2Proof.Machine

open Sys2Proof

/-! ## The length check and the acceptance rule (R101, R103) -/

/-- Settles O28: the length check comes first, and its rejection changes nothing. -/
theorem frameLengthOutsideRangeIsMalformed : Obligations.FrameLengthOutsideRangeIsMalformed := by
  intro s frame hlen
  rw [exec_rxFrame, rxFrame_malformed hlen]
  rfl

/-- The last output is the result of an `RX.FRAME`, and its status is not `SequenceGap`. -/
def AnswersWithoutGap (caller : Caller) (t : State) : Prop :=
  ∃ st completed, t.outputs.getLast? = some (.returned caller (.rx st completed)) ∧ ∀ q, st ≠ .sequenceGap q

theorem leadFrame_answersWithoutGap (caller : Caller) (seq : Byte) (tag : Nibble) (length : Half) (body : List Byte)
    (s : State) : AnswersWithoutGap caller (leadFrame caller seq tag length body s) := by
  rcases leadFrame_cases caller seq tag length body s with ⟨_, h⟩ | ⟨_, _, h⟩ | ⟨_, _, _, h⟩ | ⟨_, _, _, h⟩
  · exact h ▸ ⟨.reassemblyOverflow length.toNat, false, by simp, by simp⟩
  · exact h ▸ ⟨.malformedFrame (4 + body.length), false, by simp, by simp⟩
  · exact h ▸ ⟨.ok, true, by simp, by simp⟩
  · exact h ▸ ⟨.ok, false, by simp, by simp⟩

theorem contFrame_answersWithoutGap (caller : Caller) (seq leadRef : Byte) (body : List Byte) (s : State) :
    AnswersWithoutGap caller (contFrame caller seq leadRef body s) := by
  rcases contFrame_cases caller seq leadRef body s with ⟨_, h⟩ | ⟨_, _, h⟩ | ⟨_, _, _, h⟩ | ⟨_, _, _, h⟩
  · exact h ▸ ⟨.ok, false, by simp, by simp⟩
  · exact h ▸ ⟨.reassemblyOverflow (fragEnd seq leadRef body), false, by simp, by simp⟩
  · exact h ▸ ⟨.ok, true, by simp, by simp⟩
  · exact h ▸ ⟨.ok, false, by simp, by simp⟩

theorem rxFrame_answersWithoutGap (caller : Caller) {frame : List Byte} {s : State} (h4 : 4 ≤ frame.length)
    (h255 : frame.length ≤ 255) (hpass : frameSeq frame = s.inSeqNum ∨ frameIsCont frame = false) :
    AnswersWithoutGap caller (rxFrame caller frame s) := by
  cases hc : frameIsCont frame with
  | false =>
    rw [rxFrame_lead h4 h255 hc]
    exact leadFrame_answersWithoutGap ..
  | true =>
    rw [rxFrame_cont h4 h255 hc (by simpa [hc] using hpass)]
    exact contFrame_answersWithoutGap ..

/-- Settles O29: a frame that fails the rule is a continuation frame out of sequence, and the two frame forms, which run
only behind the rule, have other statuses. -/
theorem acceptanceRule : Obligations.AcceptanceRule := by
  intro s frame h4 h255
  refine ⟨fun hfail => ?gap, fun hpass => ?passes⟩
  case gap =>
    obtain ⟨hseq, hcont⟩ := not_or.mp hfail
    rw [exec_rxFrame, rxFrame_gap h4 h255 (by simpa using hcont) hseq]
    rfl
  case passes =>
    obtain ⟨st, completed, hlast, hst⟩ := rxFrame_answersWithoutGap .driver h4 h255 hpass
    exact ⟨_, st, completed, exec_rxFrame s frame, hlast, hst⟩

/-- Settles O30: the form a frame decodes to receives that frame, and every instruction that receives a frame is
`RX.FRAME` of it. -/
theorem rxFrameRunsTheDecodedForm : Obligations.RxFrameRunsTheDecodedForm := by
  intro s frame i hdecode
  rcases decode_source_cases frame with ⟨_, herror⟩ | ⟨i', hform, hreceives⟩
  · rw [herror] at hdecode
    cases hdecode
  · obtain rfl : i' = i := Except.ok.inj (hform.symm.trans hdecode)
    rw [exec_rxFrame, exec_receives hreceives]

/-! ## What an accepted frame writes (R104, R105) -/

section
variable {length : Half} {body : List Byte} {s : State}

theorem read_acceptLead_inside (seq : Byte) (tag : Nibble) (hb : leadSpan length ≤ body.length) {a : Nat}
    (ha : a < leadSpan length) :
    (acceptLead seq tag length body s).rbuf.read a = body[a]? := by
  simp only [acceptLead, State.expectAfter_rbuf, State.latchLead_rbuf, State.storeAt_rbuf]
  rw [Memory.read_write, if_pos (by rw [List.length_take_of_le hb]; omega), Nat.sub_zero, List.getElem?_take_of_lt ha]

theorem read_acceptLead_outside (seq : Byte) (tag : Nibble) {a : Nat} (ha : leadSpan length ≤ a) :
    (acceptLead seq tag length body s).rbuf.read a = s.rbuf.read a :=
  Memory.read_write_outside (.inr (by simp only [List.length_take]; omega))

/-- A packet of one frame: what `MemRead(0, declLen)` gives is the body's first `length` bytes. -/
theorem readRange_acceptLead (seq : Byte) (tag : Nibble) (hb : leadSpan length ≤ body.length)
    (hl : length.toNat ≤ 251) :
    (acceptLead seq tag length body s).rbuf.readRange 0 length.toNat = body.take length.toNat := by
  have hspan : leadSpan length = length.toNat := Nat.min_eq_left hl
  have hself := Memory.readRange_write_self s.rbuf 0 (body.take (leadSpan length))
  rw [List.length_take_of_le hb, hspan] at hself
  rw [acceptLead, hspan]
  exact hself

variable {seq leadRef : Byte}

theorem read_acceptCont_inside {n : Nat} (hn : n < body.length) :
    (acceptCont seq leadRef body s).rbuf.read (fragBase seq leadRef + n) = body[n]? :=
  (Memory.read_write_inside hn).trans (List.getElem?_eq_getElem hn).symm

theorem read_acceptCont_outside {a : Nat} (ha : a < fragBase seq leadRef ∨ fragEnd seq leadRef body ≤ a) :
    (acceptCont seq leadRef body s).rbuf.read a = s.rbuf.read a :=
  Memory.read_write_outside ha

end

/-! ## The two frame forms as instructions -/

/-- The outputs of a completion, to be read in the state it happens in: one `Dispatch`, then the result (R107). -/
def completionOutputs (caller : Caller) (t : State) : List Output :=
  [.dispatch t.rxKind (t.rbuf.readRange 0 t.declLen.toNat), .returned caller (.rx .ok true)]

theorem State.complete_eq (s : State) (caller : Caller) :
    s.complete caller = { s with phase := .idle, outputs := s.outputs ++ completionOutputs caller s } := by
  rw [completionOutputs, ← State.complete_outputs]
  rfl

section
variable {caller : Caller} {seq leadRef : Byte} {tag : Nibble} {length : Half} {body : List Byte} {s : State}

theorem exec_frameLead_eq_leadFrame (hbody : body.length ≤ 251) (reserved : BitVec 3) :
    exec (.frameLead seq tag reserved length body) s = .next (leadFrame .driver seq tag length body s) := by
  rw [exec_frameLead, rxFrame_lead (by simp) (by simp only [length_leadBytes]; omega) (by simp)]
  simp

/-- A completed or opened packet: the state of `acceptLead` but for `phase` and what is sent out. -/
theorem leadFrame_accepted (hcap : length.toNat ≤ s.params.reasmCap) (hb : leadSpan length ≤ body.length) :
    ∃ p own, leadFrame caller seq tag length body s =
        { acceptLead seq tag length body s with phase := p, outputs := s.outputs ++ own } ∧
      (length.toNat ≤ 251 → p = .idle ∧
        own = [.dispatch tag (body.take length.toNat), .returned caller (.rx .ok true)]) ∧
      (251 < length.toNat → p = .accumulating ∧ own = [.returned caller (.rx .ok false)]) := by
  rcases Nat.lt_or_ge 251 length.toNat with hl | hl
  · exact ⟨.accumulating, _, leadFrame_accumulates hcap hb hl, by omega, fun _ => ⟨rfl, rfl⟩⟩
  · refine ⟨.idle, _, (leadFrame_completes hcap hb hl).trans (State.complete_eq _ _), fun _ => ⟨rfl, ?_⟩, by omega⟩
    rw [← readRange_acceptLead seq tag hb hl]
    rfl

theorem exec_frameCont_gap (hbody : body.length ≤ 251) (hseq : seq ≠ s.inSeqNum) (reserved : BitVec 3) (unused : Byte) :
    exec (.frameCont seq tag reserved unused leadRef body) s =
      .next (s.emit (.returned .driver (.rx (.sequenceGap seq) false))) := by
  rw [exec_frameCont, rxFrame_gap (by simp) (by simp only [length_contBytes]; omega) (by simp) (by simpa using hseq)]
  simp

theorem exec_frameCont_eq_contFrame (hbody : body.length ≤ 251) (hseq : seq = s.inSeqNum) (reserved : BitVec 3)
    (unused : Byte) :
    exec (.frameCont seq tag reserved unused leadRef body) s = .next (contFrame .driver seq leadRef body s) := by
  rw [exec_frameCont, rxFrame_cont (by simp) (by simp only [length_contBytes]; omega) (by simp) (by simpa using hseq)]
  simp

/-- A continued or completed packet: the state of `acceptCont` but for `phase` and what is sent out. -/
theorem contFrame_accepted (hphase : s.phase = .accumulating) (hend : fragEnd seq leadRef body ≤ s.params.reasmCap) :
    ∃ p own, contFrame caller seq leadRef body s =
        { acceptCont seq leadRef body s with phase := p, outputs := s.outputs ++ own } ∧
      (fragEnd seq leadRef body = s.declLen.toNat → p = .idle ∧
        own = completionOutputs caller (acceptCont seq leadRef body s)) ∧
      (fragEnd seq leadRef body ≠ s.declLen.toNat → p = .accumulating ∧ own = [.returned caller (.rx .ok false)]) := by
  by_cases hd : fragEnd seq leadRef body = s.declLen.toNat
  · exact ⟨.idle, _, (contFrame_completes hphase hend hd).trans (State.complete_eq _ _), fun _ => ⟨rfl, rfl⟩,
      fun h => absurd hd h⟩
  · refine ⟨.accumulating, _, ?_, fun h => absurd h hd, fun _ => ⟨rfl, rfl⟩⟩
    rw [contFrame_continues hphase hend hd]
    ext1 <;> simp [acceptCont, hphase]

/-- R68 over the naturals: the fragment index is the difference of the two numbers modulo 256. -/
theorem fragIdx_eq_mod (seq leadRef : Byte) : fragIdx seq leadRef = (256 + seq.toNat - leadRef.toNat) % 256 := by
  have := leadRef.isLt
  rw [fragIdx, BitVec.toNat_sub]
  omega

end

/-- Settles O31: the two rejections of R104 in their order; an accepted frame is `acceptLead` and then one of its ends. -/
theorem leadingFrameEffect : Obligations.LeadingFrameEffect := by
  intro s seq kindTag reserved length body hbody
  rw [exec_frameLead_eq_leadFrame hbody]
  refine ⟨fun hover => ?overflow, fun hcap hshort => ?short, fun hcap hb => ?accepted⟩
  case overflow =>
    rw [leadFrame_overflow hover]
    rfl
  case short =>
    rw [leadFrame_short hcap hshort]
    rfl
  case accepted =>
    obtain ⟨p, own, heq, hdone, hopen⟩ :=
      leadFrame_accepted (caller := .driver) (seq := seq) (tag := kindTag) hcap hb
    rw [heq]
    refine ⟨_, rfl, rfl, rfl, rfl, fun a => read_acceptLead_inside seq kindTag hb,
      fun a => read_acceptLead_outside seq kindTag, rfl, ⟨rfl, rfl, rfl, rfl⟩, fun hl => ?_, fun hl => ?_⟩
    · obtain ⟨hp, rfl⟩ := hdone hl
      exact ⟨hp, rfl⟩
    · obtain ⟨hp, rfl⟩ := hopen hl
      exact ⟨hp, rfl⟩

/-- Settles O32: the gap of R103, the orphan and the overflow of R105; an accepted fragment is `acceptCont` and then one of
its ends. -/
theorem continuationFrameEffect : Obligations.ContinuationFrameEffect := by
  intro s seq kindTag reserved unused leadRef body base hbody hbase
  obtain rfl : base = fragBase seq leadRef := by rw [hbase, fragBase, fragIdx_eq_mod]
  refine ⟨fun hseq => exec_frameCont_gap hbody hseq reserved unused, fun hseq hidle => ?orphan,
    fun hseq hphase hover => ?overflow, fun hseq hphase hend => ?accepted⟩
  case orphan =>
    rw [exec_frameCont_eq_contFrame hbody hseq, contFrame_orphan hidle]
    rfl
  case overflow =>
    rw [exec_frameCont_eq_contFrame hbody hseq, contFrame_overflow hphase hover]
    rfl
  case accepted =>
    obtain ⟨p, own, heq, hdone, hopen⟩ := contFrame_accepted (caller := .driver) hphase hend
    rw [exec_frameCont_eq_contFrame hbody hseq, heq]
    refine ⟨_, rfl, rfl, rfl, rfl, fun n => read_acceptCont_inside, fun a => read_acceptCont_outside, rfl,
      ⟨rfl, rfl, rfl, rfl⟩, fun hd => ?_, fun hd => ?_⟩
    · obtain ⟨hp, rfl⟩ := hdone hd
      refine ⟨hp, _, Memory.length_readRange .., fun a ha => ?_, rfl⟩
      rw [List.getElem?_eq_getElem ha, Memory.getElem_readRange, Nat.zero_add]
    · obtain ⟨hp, rfl⟩ := hopen hd
      exact ⟨hp, rfl⟩

/-! ## The frames that are accepted (R106) -/

/-- The accepted frames: a leading frame within the capacity and with enough body, or a continuation frame in sequence that
finds the reassembler idle or ends within the capacity. -/
def Accepts (s : State) (frame : List Byte) : Prop :=
  4 ≤ frame.length ∧ frame.length ≤ 255 ∧
    ((frameIsCont frame = false ∧ (frameLength frame).toNat ≤ s.params.reasmCap ∧
        min (frameLength frame).toNat 251 ≤ frame.length - 4) ∨
      (frameIsCont frame = true ∧ frameSeq frame = s.inSeqNum ∧
        (s.phase = .idle ∨
          251 * fragIdx (frameSeq frame) (frameLeadRef frame) + (frame.length - 4) ≤ s.params.reasmCap)))

section
variable {caller : Caller} {frame : List Byte} {s : State}

theorem fragEnd_frameBody (seq leadRef : Byte) (frame : List Byte) :
    fragEnd seq leadRef (frameBody frame) = 251 * fragIdx seq leadRef + (frame.length - 4) := by
  rw [fragEnd, length_frameBody, fragBase]

theorem leadFrame_inSeqNum_of_accepted {seq : Byte} {tag : Nibble} {length : Half} {body : List Byte}
    (hcap : length.toNat ≤ s.params.reasmCap) (hb : leadSpan length ≤ body.length) :
    (leadFrame caller seq tag length body s).inSeqNum = seq + 1 ∧
      ∃ c, (leadFrame caller seq tag length body s).outputs.getLast? = some (.returned caller (.rx .ok c)) := by
  rcases Nat.lt_or_ge 251 length.toNat with hl | hl
  · rw [leadFrame_accumulates hcap hb hl]
    exact ⟨rfl, false, by simp⟩
  · rw [leadFrame_completes hcap hb hl]
    exact ⟨rfl, true, by simp⟩

theorem contFrame_inSeqNum_of_accepted {seq leadRef : Byte} {body : List Byte}
    (h : s.phase = .idle ∨ fragEnd seq leadRef body ≤ s.params.reasmCap) :
    (contFrame caller seq leadRef body s).inSeqNum = seq + 1 ∧
      ∃ c, (contFrame caller seq leadRef body s).outputs.getLast? = some (.returned caller (.rx .ok c)) := by
  rcases contFrame_cases caller seq leadRef body s with ⟨_, h'⟩ | ⟨hphase, hover, _⟩ | ⟨_, _, _, h'⟩ | ⟨_, _, _, h'⟩
  · exact h' ▸ ⟨rfl, false, by simp⟩
  · rw [hphase] at h
    rcases h with h | h
    · cases h
    · omega
  · exact h' ▸ ⟨rfl, true, by simp⟩
  · exact h' ▸ ⟨rfl, false, by simp⟩

theorem rxFrame_of_accepts (h : Accepts s frame) :
    (rxFrame caller frame s).inSeqNum = frameSeq frame + 1 ∧
      ∃ c, (rxFrame caller frame s).outputs.getLast? = some (.returned caller (.rx .ok c)) := by
  obtain ⟨h4, h255, ⟨hc, hcap, hb⟩ | ⟨hc, hseq, hfits⟩⟩ := h
  · rw [rxFrame_lead h4 h255 hc]
    exact leadFrame_inSeqNum_of_accepted hcap (by rwa [length_frameBody])
  · rw [rxFrame_cont h4 h255 hc hseq]
    exact contFrame_inSeqNum_of_accepted (by rwa [fragEnd_frameBody])

theorem rxFrame_of_not_accepts (h : ¬Accepts s frame) :
    ∃ st, st ≠ .ok ∧ rxFrame caller frame s = s.emit (.returned caller (.rx st false)) := by
  by_cases hlen : frame.length < 4 ∨ 255 < frame.length
  · exact ⟨_, by simp, rxFrame_malformed hlen⟩
  · have h4 : 4 ≤ frame.length := by omega
    have h255 : frame.length ≤ 255 := by omega
    cases hc : frameIsCont frame with
    | false =>
      rw [rxFrame_lead h4 h255 hc]
      by_cases hcap : (frameLength frame).toNat ≤ s.params.reasmCap
      · have hshort : (frameBody frame).length < leadSpan (frameLength frame) :=
          Nat.lt_of_not_le fun hb => h ⟨h4, h255, .inl ⟨hc, hcap, by rwa [length_frameBody] at hb⟩⟩
        exact ⟨_, by simp, leadFrame_short hcap hshort⟩
      · exact ⟨_, by simp, leadFrame_overflow (Nat.lt_of_not_le hcap)⟩
    | true =>
      by_cases hseq : frameSeq frame = s.inSeqNum
      · have hrejects : ¬(s.phase = .idle ∨
            fragEnd (frameSeq frame) (frameLeadRef frame) (frameBody frame) ≤ s.params.reasmCap) := by
          rw [fragEnd_frameBody]
          exact fun hfits => h ⟨h4, h255, .inr ⟨hc, hseq, hfits⟩⟩
        obtain ⟨hphase, hover⟩ := not_or.mp hrejects
        rw [rxFrame_cont h4 h255 hc hseq]
        refine ⟨_, by simp, contFrame_overflow ?_ (Nat.lt_of_not_le hover)⟩
        cases hp : s.phase with
        | idle => exact absurd hp hphase
        | accumulating => rfl
      · exact ⟨_, by simp, rxFrame_gap h4 h255 hc hseq⟩

end

/-- Settles O33: an accepted frame latches its successor's number in every branch, and a rejection changes nothing. -/
theorem acceptedFrameSetsInSeqNum : Obligations.AcceptedFrameSetsInSeqNum := by
  intro s frame
  refine ⟨fun haccepts => ?accepted, fun hrejects => ?rejected⟩
  case accepted =>
    obtain ⟨hseq, c, hlast⟩ := rxFrame_of_accepts (caller := .driver) haccepts
    exact ⟨_, c, exec_rxFrame s frame, hseq, hlast⟩
  case rejected =>
    obtain ⟨st, hst, heq⟩ := rxFrame_of_not_accepts (caller := .driver) hrejects
    exact ⟨_, st, exec_rxFrame s frame, by simp [heq], hst, by simp [heq]⟩

/-! ## Completion (R107, R109) -/

/-- R107's two cases: a leading frame of a packet that fits one body, or the fragment that ends at `declLen`. -/
def EndsPacket (s : State) (frame : List Byte) : Prop :=
  (frameIsCont frame = false ∧ (frameLength frame).toNat ≤ 251) ∨
    (frameIsCont frame = true ∧ s.phase = .accumulating ∧
      251 * fragIdx (frameSeq frame) (frameLeadRef frame) + (frame.length - 4) = s.declLen.toNat)

/-- `RX.FRAME` completes the packet, with R107's outputs and `phase` Idle, or only returns its result; then it does not
take `phase` from Accumulating to Idle. -/
theorem rxFrame_completes_or_not (caller : Caller) (frame : List Byte) (s : State) :
    (EndsPacket s frame ∧ newOutputs s (rxFrame caller frame s) = completionOutputs caller (rxFrame caller frame s) ∧
      (rxFrame caller frame s).phase = .idle) ∨
    ∃ st, newOutputs s (rxFrame caller frame s) = [.returned caller (.rx st false)] ∧
      ¬(st = .ok ∧ EndsPacket s frame) ∧
      ((rxFrame caller frame s).phase = .idle → s.phase = .idle) := by
  apply rxFrame_of_ends caller frame s (fun t =>
    (EndsPacket s frame ∧ newOutputs s t = completionOutputs caller t ∧ t.phase = .idle) ∨
    ∃ st, newOutputs s t = [.returned caller (.rx st false)] ∧ ¬(st = .ok ∧ EndsPacket s frame) ∧
      (t.phase = .idle → s.phase = .idle))
  case reject =>
    intro st hst
    exact .inr ⟨st, by simp [newOutputs], by simp [hst], id⟩
  case orphan =>
    intro hc hidle
    exact .inr ⟨.ok, by simp [newOutputs], by simp [EndsPacket, hc, hidle], fun _ => hidle⟩
  case leadDone =>
    intro hc _ _ hl
    exact .inl ⟨.inl ⟨hc, hl⟩, by simp [newOutputs, completionOutputs, acceptLead], rfl⟩
  case leadOpen =>
    intro hc _ _ hl
    exact .inr ⟨.ok, by simp [newOutputs, acceptLead], by simp [EndsPacket, hc, hl], by simp⟩
  case contDone =>
    intro hc hphase _ hend
    rw [fragEnd_frameBody] at hend
    exact .inl ⟨.inr ⟨hc, hphase, hend⟩, by simp [newOutputs, completionOutputs, acceptCont], rfl⟩
  case contOpen =>
    intro hc hphase _ hend
    rw [fragEnd_frameBody] at hend
    exact .inr ⟨.ok, by simp [newOutputs, acceptCont], by simp [EndsPacket, hc, hend], by simp [acceptCont, hphase]⟩

/-- Settles O34: by whether the packet completes. -/
theorem completionDispatchesOnce : Obligations.CompletionDispatchesOnce := by
  intro s t frame h
  obtain rfl : rxFrame .driver frame s = t := Host.Outcome.next.inj h
  rcases rxFrame_completes_or_not .driver frame s with ⟨hends, hnew, hidle⟩ | ⟨st, hnew, hnot, _⟩
  · exact ⟨.ok, true, hnew, fun _ => hidle, iff_of_true rfl ⟨rfl, hends⟩⟩
  · exact ⟨st, false, hnew, nofun, iff_of_false nofun hnot⟩

/-- Settles O44: `SEG.*` keeps `phase`, and a frame that does not complete a packet does not end it. -/
theorem accumulatingEndsOnlyByCompletionOrReset : Obligations.AccumulatingEndsOnlyByCompletionOrReset := by
  intro s t i hq hphase h hidle
  rcases exec_cases h with ⟨payload, tag, hs⟩ | ⟨hreset, _⟩ | ⟨frame, hr, rfl⟩
  · obtain ⟨x, turns, calls, outs, rfl⟩ := exec_segments_quiet hs hq h
    cases hphase.symm.trans hidle
  · exact .inl hreset
  · rcases rxFrame_completes_or_not .driver frame s with ⟨_, hnew, _⟩ | ⟨_, _, _, hkept⟩
    · exact .inr ⟨frame, hr, hnew⟩
    · cases hphase.symm.trans (hkept hidle)

/-! ## What `RX.FRAME` leaves alone -/

section
variable (caller : Caller) {frame : List Byte} (s : State)

/-- A continuation frame latches nothing (R104 is the one writer of both registers but `RESET`). -/
theorem rxFrame_cont_keeps_latched (hc : frameIsCont frame = true) :
    (rxFrame caller frame s).declLen = s.declLen ∧ (rxFrame caller frame s).rxKind = s.rxKind := by
  rcases rxFrame_rejects_or_accepts caller frame s with ⟨st, h⟩ | ⟨_, hlatch⟩
  · exact h ▸ ⟨rfl, rfl⟩
  · exact hlatch hc

theorem rxFrame_lead_read_outside (hc : frameIsCont frame = false) {a : Nat} (ha : leadSpan (frameLength frame) ≤ a) :
    (rxFrame caller frame s).rbuf.read a = s.rbuf.read a := by
  apply rxFrame_of_ends caller frame s (fun t => t.rbuf.read a = s.rbuf.read a)
  case reject => exact fun _ _ => rfl
  case leadDone => exact fun _ _ _ _ => read_acceptLead_outside (frameSeq frame) (frameKind frame) ha
  case leadOpen => exact fun _ _ _ _ => read_acceptLead_outside (frameSeq frame) (frameKind frame) ha
  all_goals simp [hc]

theorem rxFrame_cont_read_outside (hc : frameIsCont frame = true) {a : Nat}
    (ha : a < fragBase (frameSeq frame) (frameLeadRef frame) ∨
      fragEnd (frameSeq frame) (frameLeadRef frame) (frameBody frame) ≤ a) :
    (rxFrame caller frame s).rbuf.read a = s.rbuf.read a := by
  apply rxFrame_of_ends caller frame s (fun t => t.rbuf.read a = s.rbuf.read a)
  case reject => exact fun _ _ => rfl
  case orphan => exact fun _ _ => rfl
  case contDone => exact fun _ _ _ _ => read_acceptCont_outside ha
  case contOpen => exact fun _ _ _ _ => read_acceptCont_outside ha
  all_goals simp [hc]

end

/-- Settles O36: field by field, the two forms of frame apart. -/
theorem rxFrameLeavesTheRestAlone : Obligations.RxFrameLeavesTheRestAlone := by
  intro s t frame h
  obtain rfl : rxFrame .driver frame s = t := Host.Outcome.next.inj h
  obtain ⟨hout, hsurroundings⟩ := rxFrame_keeps .driver frame s
  obtain ⟨own, hown, hframes, _⟩ := rxFrame_own .driver frame s
  exact ⟨hout, hsurroundings, rxFrame_cont_keeps_latched .driver s,
    fun hc a => rxFrame_lead_read_outside .driver s hc, fun hc a => rxFrame_cont_read_outside .driver s hc,
    own, hown, hframes⟩

/-! ## The tag without a use (R111) -/

/-- A `Dispatch` carries the tag that `rxKind` then holds. -/
theorem rxFrame_dispatch_tag {caller : Caller} {frame : List Byte} {s : State} {tag : Nibble} {payload : List Byte}
    (h : Output.dispatch tag payload ∈ newOutputs s (rxFrame caller frame s)) :
    tag = (rxFrame caller frame s).rxKind := by
  rcases rxFrame_completes_or_not caller frame s with ⟨_, hnew, _⟩ | ⟨st, hnew, _⟩
  · rw [hnew] at h
    simp only [completionOutputs, List.mem_cons, Output.dispatch.injEq, reduceCtorEq, List.not_mem_nil, or_false] at h
    exact h.1
  · simp [hnew] at h

theorem packetFrame_kind (payload : List Byte) (tag : Nibble) (s0 : Byte) (k : Nat) :
    frameKind (packetFrame payload tag s0 k) = tag := by
  rw [← segFrame_eq, segFrame_kind]

/-- Settles O37: the meaning of `FRAME.CONT` does not look at the tag, and `RX.FRAME` of the frame is `FRAME.CONT`; every
frame handed over is one of R81's table. -/
theorem continuationKindTagIsIgnored : Obligations.ContinuationKindTagIsIgnored := by
  refine ⟨fun s t seq leadRef unused kindTag kindTag' reserved body => ?received,
    fun s t i payload tag hs h frame hf => ?sent⟩
  case received =>
    have hform : exec (.frameCont seq kindTag reserved unused leadRef body) s =
      exec (.frameCont seq kindTag' reserved unused leadRef body) s := rfl
    refine ⟨?_, hform, fun h => ?_⟩
    · rwa [exec_frameCont, exec_frameCont] at hform
    · obtain rfl := Host.Outcome.next.inj h
      obtain ⟨_, hkind⟩ := rxFrame_cont_keeps_latched .driver s (contBytes_cont seq kindTag reserved unused leadRef body)
      exact ⟨hkind, fun tag payload hd => (rxFrame_dispatch_tag hd).trans hkind⟩
  case sent =>
    obtain ⟨m, st, hsent, _⟩ := exec_segments_sentOut hs h
    obtain ⟨k, rfl⟩ := hsent.exists_packetFrame hf
    exact packetFrame_kind payload tag _ k

/-! ## The payload in `rbuf` -/

/-- The first `k` fragments of a payload stand in `rbuf`, each at `251 × fragIdx` (R104, R105). -/
def Memory.Holds (m : Memory) (payload : List Byte) (k : Nat) : Prop :=
  ∀ n (hn : n < payload.length), n < 251 * k → m.byteAt n = payload[n]

theorem Memory.holds_zero (m : Memory) (payload : List Byte) : m.Holds payload 0 := fun _ _ h => absurd h (by omega)

/-- The write of fragment `k` keeps the fragments below it. -/
theorem Memory.Holds.write {m : Memory} {payload : List Byte} {k : Nat} (h : m.Holds payload k) :
    (m.write (251 * k) (segBody payload k)).Holds payload (k + 1) := by
  intro n hn hk
  rcases Nat.lt_or_ge n (251 * k) with hlt | hge
  · rw [Memory.byteAt_write_outside (.inl hlt), h n hn hlt]
  · obtain ⟨j, rfl⟩ := Nat.exists_eq_add_of_le hge
    have hj : j < (segBody payload k).length := by
      rw [length_segBody]
      omega
    rw [Memory.byteAt_write_inside hj]
    simp [segBody]

/-- Once every fragment is there, `MemRead(0, declLen)` gives the payload. -/
theorem Memory.Holds.readRange {m : Memory} {payload : List Byte} {k : Nat} (h : m.Holds payload k)
    (hk : payload.length ≤ 251 * k) : m.readRange 0 payload.length = payload :=
  Memory.readRange_eq fun n hn => by rw [Nat.zero_add, h n hn (by omega)]

/-! ## One frame of a packet at the receiver -/

section
variable {payload : List Byte} {tag : Nibble} {s0 : Byte} {caller : Caller} {s : State}

theorem packetFrame_length_bounds (k : Nat) :
    4 ≤ (packetFrame payload tag s0 k).length ∧ (packetFrame payload tag s0 k).length ≤ 255 := by
  rw [length_packetFrame]
  omega

theorem toNat_ofNat_length (h : payload.length ≤ 64256) : (BitVec.ofNat 16 payload.length).toNat = payload.length := by
  rw [BitVec.toNat_ofNat]
  omega

/-- A continuation frame of a packet has bytes of the payload left to carry. -/
theorem mul_lt_of_lt_packetFrames {k : Nat} (hk0 : k ≠ 0) (hk : k < packetFrames payload.length) :
    251 * k < payload.length := by
  unfold packetFrames at hk
  omega

theorem length_le_of_fits (hwf : s.params.wf = true) (hfit : payload.length ≤ s.params.reasmCap) :
    payload.length ≤ 64256 := by
  simp only [Config.Params.wf, Config.maxPacket, Bool.and_eq_true, decide_eq_true_eq] at hwf
  omega

theorem rxFrame_packetFrame_lead :
    rxFrame caller (packetFrame payload tag s0 0) s =
      leadFrame caller s0 tag (BitVec.ofNat 16 payload.length) (segBody payload 0) s := by
  obtain ⟨h4, h255⟩ := packetFrame_length_bounds (payload := payload) (tag := tag) (s0 := s0) 0
  rw [← segFrame_eq, segFrame_lead] at h4 h255 ⊢
  rw [rxFrame_lead h4 h255 (leadBytes_cont ..)]
  simp

theorem rxFrame_packetFrame_cont {k : Nat} (hk : k ≠ 0) (hseq : s.inSeqNum = s0 + BitVec.ofNat 8 k) :
    rxFrame caller (packetFrame payload tag s0 k) s =
      contFrame caller (s0 + BitVec.ofNat 8 k) s0 (segBody payload k) s := by
  obtain ⟨h4, h255⟩ := packetFrame_length_bounds (payload := payload) (tag := tag) (s0 := s0) k
  rw [rxFrame_cont h4 h255 (packetFrame_isCont hk) hseq.symm, packetFrame_seq, packetFrame_leadRef hk, packetFrame_body]

/-- The leading frame of a packet has a body as long as it has to write. -/
theorem leadSpan_eq_length_segBody (h : payload.length ≤ 64256) :
    leadSpan (BitVec.ofNat 16 payload.length) = (segBody payload 0).length := by
  rw [leadSpan, toNat_ofNat_length h, length_segBody, Nat.mul_zero, Nat.sub_zero, Nat.min_comm]

/-- Frame `k` of a packet writes at `251 × k`. -/
theorem fragBase_packet (s0 : Byte) {k : Nat} (hk0 : k ≠ 0) (hk : k < 256) :
    fragBase (s0 + BitVec.ofNat 8 k) s0 = 251 * k := by
  have hidx := packetFrame_fragIdx (payload := []) (tag := 0) (s0 := s0) hk0 hk
  rw [packetFrame_seq, packetFrame_leadRef hk0] at hidx
  rw [fragBase, hidx]

theorem fragEnd_packet (s0 : Byte) {k : Nat} (hk0 : k ≠ 0) (hk : k < 256) :
    fragEnd (s0 + BitVec.ofNat 8 k) s0 (segBody payload k) = 251 * k + min 251 (payload.length - 251 * k) := by
  rw [fragEnd, fragBase_packet s0 hk0 hk, length_segBody]

theorem succ_ofNat (s0 : Byte) (k : Nat) : s0 + BitVec.ofNat 8 k + 1 = s0 + BitVec.ofNat 8 (k + 1) := by
  rw [BitVec.ofNat_add, BitVec.add_assoc]
  rfl

end

/-! ## The receiver in the middle of a packet

The idea of R113 and of R114 is one invariant: after the first `k` frames of a packet the receiver is `MidPacket`. -/

/-- `u` is the receiver `b` after the first `k` frames of a packet, with more to come: they were accepted without a
completion, and their fragments stand in `rbuf`. -/
structure MidPacket (b u : State) (payload : List Byte) (tag : Nibble) (s0 : Byte) (k : Nat) : Prop where
  phase : u.phase = .accumulating
  inSeqNum : u.inSeqNum = s0 + BitVec.ofNat 8 k
  declLen : u.declLen.toNat = payload.length
  rxKind : u.rxKind = tag
  rbuf : u.rbuf.Holds payload k
  outSeqNum : u.outSeqNum = b.outSeqNum
  params : u.params = b.params
  outputs : u.outputs = b.outputs ++ List.replicate k (.returned .driver (.rx .ok false))

/-- `u` is the receiver `b` after a whole packet: its payload was dispatched once, by the last frame. -/
structure PacketDone (b u : State) (payload : List Byte) (tag : Nibble) (s0 : Byte) : Prop where
  outputs : u.outputs = b.outputs ++
    List.replicate (packetFrames payload.length - 1) (.returned .driver (.rx .ok false))
      ++ [.dispatch tag payload, .returned .driver (.rx .ok true)]
  phase : u.phase = .idle
  inSeqNum : u.inSeqNum = s0 + BitVec.ofNat 8 (packetFrames payload.length)
  declLen : u.declLen.toNat = payload.length
  rxKind : u.rxKind = tag
  outSeqNum : u.outSeqNum = b.outSeqNum

section
variable {b u : State} {payload : List Byte} {tag : Nibble} {s0 : Byte} {k : Nat}

/-- What the accepted leading frame of a packet leaves in `rbuf`. -/
theorem acceptLead_holds (b : State) (tag : Nibble) (s0 : Byte) (h : payload.length ≤ 64256) :
    (acceptLead s0 tag (BitVec.ofNat 16 payload.length) (segBody payload 0) b).rbuf.Holds payload 1 := by
  rw [acceptLead, leadSpan_eq_length_segBody h, List.take_length]
  exact (b.rbuf.holds_zero payload).write

/-- What an accepted continuation frame of a packet leaves in `rbuf`. -/
theorem acceptCont_holds (h : u.rbuf.Holds payload k) (hk0 : k ≠ 0) (hk : k < 256) :
    (acceptCont (s0 + BitVec.ofNat 8 k) s0 (segBody payload k) u).rbuf.Holds payload (k + 1) := by
  rw [acceptCont, fragBase_packet s0 hk0 hk]
  exact h.write

/-- A completion with the whole payload in `rbuf` dispatches it. -/
theorem completionOutputs_of_holds {caller : Caller} (h : u.rbuf.Holds payload k) (hk : payload.length ≤ 251 * k)
    (hkind : u.rxKind = tag) (hdecl : u.declLen.toNat = payload.length) :
    completionOutputs caller u = [.dispatch tag payload, .returned caller (.rx .ok true)] := by
  rw [completionOutputs, hkind, hdecl, h.readRange hk]

/-- The leading frame of a packet of several frames. -/
theorem midPacket_one (hlen : payload.length ≤ 64256) (hfit : payload.length ≤ b.params.reasmCap)
    (hmore : 1 < packetFrames payload.length) :
    MidPacket b (rxFrame .driver (packetFrame payload tag s0 0) b) payload tag s0 1 := by
  have hlong : 251 < payload.length := mul_lt_of_lt_packetFrames (by omega) hmore
  have hspan := leadSpan_eq_length_segBody hlen
  rw [rxFrame_packetFrame_lead,
    leadFrame_accumulates (by rwa [toNat_ofNat_length hlen]) hspan.le (by rwa [toNat_ofNat_length hlen])]
  exact {
    phase := rfl
    inSeqNum := rfl
    declLen := toNat_ofNat_length hlen
    rxKind := rfl
    rbuf := acceptLead_holds b tag s0 hlen
    outSeqNum := rfl
    params := rfl
    outputs := rfl }

/-- A continuation frame of a packet that has another one behind it. -/
theorem MidPacket.next (h : MidPacket b u payload tag s0 k) (hk : k ≠ 0) (hlen : payload.length ≤ 64256)
    (hfit : payload.length ≤ b.params.reasmCap) (hmore : k + 1 < packetFrames payload.length) :
    MidPacket b (rxFrame .driver (packetFrame payload tag s0 k) u) payload tag s0 (k + 1) := by
  have hk256 : k < 256 := lt_of_lt_of_le (by omega) (packetFrames_le hlen)
  have hrest := mul_lt_of_lt_packetFrames (by omega) hmore
  have hend := fragEnd_packet (payload := payload) s0 hk hk256
  rw [rxFrame_packetFrame_cont hk h.inSeqNum,
    contFrame_continues h.phase (by rw [hend, h.params]; omega) (by rw [hend, h.declLen]; omega)]
  exact {
    phase := h.phase
    inSeqNum := succ_ofNat s0 k
    declLen := h.declLen
    rxKind := h.rxKind
    rbuf := acceptCont_holds h.rbuf hk hk256
    outSeqNum := h.outSeqNum
    params := h.params
    outputs := by simp [acceptCont, h.outputs, List.replicate_succ'] }

/-- The last frame of a packet of several frames. -/
theorem MidPacket.last (h : MidPacket b u payload tag s0 k) (hk : k ≠ 0) (hlen : payload.length ≤ 64256)
    (hfit : payload.length ≤ b.params.reasmCap) (hlast : packetFrames payload.length = k + 1) :
    PacketDone b (rxFrame .driver (packetFrame payload tag s0 k) u) payload tag s0 := by
  have hk256 : k < 256 := lt_of_lt_of_le (by omega) (packetFrames_le hlen)
  have hroom := le_packetFrames payload.length
  have hmore : 251 * k < payload.length := mul_lt_of_lt_packetFrames hk (by omega)
  have hend : fragEnd (s0 + BitVec.ofNat 8 k) s0 (segBody payload k) = payload.length := by
    rw [fragEnd_packet s0 hk hk256]
    omega
  have hown := completionOutputs_of_holds (caller := .driver) (acceptCont_holds (s0 := s0) h.rbuf hk hk256)
    (hlast ▸ hroom) h.rxKind h.declLen
  rw [rxFrame_packetFrame_cont hk h.inSeqNum,
    contFrame_completes h.phase (by rwa [hend, h.params]) (hend.trans h.declLen.symm)]
  exact {
    outputs := by
      rw [State.complete_eq, hown]
      simp [acceptCont, h.outputs, hlast]
    phase := rfl
    inSeqNum := by
      rw [hlast]
      exact succ_ofNat s0 k
    declLen := h.declLen
    rxKind := h.rxKind
    outSeqNum := h.outSeqNum }

/-- The one frame of a packet that fits it. -/
theorem packetDone_single (hlen : payload.length ≤ 64256) (hfit : payload.length ≤ b.params.reasmCap)
    (hone : packetFrames payload.length = 1) :
    PacketDone b (rxFrame .driver (packetFrame payload tag s0 0) b) payload tag s0 := by
  have hshort : payload.length ≤ 251 := by simpa [hone] using le_packetFrames payload.length
  have hspan := leadSpan_eq_length_segBody hlen
  have hown := completionOutputs_of_holds (caller := .driver) (acceptLead_holds b tag s0 hlen) (by omega) rfl
    (toNat_ofNat_length hlen)
  rw [rxFrame_packetFrame_lead,
    leadFrame_completes (by rwa [toNat_ofNat_length hlen]) hspan.le (by rwa [toNat_ofNat_length hlen])]
  exact {
    outputs := by
      rw [State.complete_eq, hown]
      simp [acceptLead, hone]
    phase := rfl
    inSeqNum := by
      rw [hone]
      rfl
    declLen := toNat_ofNat_length hlen
    rxKind := rfl
    outSeqNum := rfl }

/-! ## A run of frames -/

theorem receiveFrom_packet_succ (caller : Caller) (hk : k < packetFrames payload.length) (s : State) :
    receiveFrom caller ((packet payload tag s0).take (k + 1)) s =
      rxFrame caller (packetFrame payload tag s0 k) (receiveFrom caller ((packet payload tag s0).take k) s) := by
  rw [List.take_add_one, packet_getElem? hk, Option.toList_some, receiveFrom_append]
  rfl

/-- The first frames of a packet, with more to come, delivered in order. -/
theorem receiveFrom_take_midPacket (hlen : payload.length ≤ 64256) (hfit : payload.length ≤ b.params.reasmCap)
    (hk : k + 1 < packetFrames payload.length) :
    MidPacket b (receiveFrom .driver ((packet payload tag s0).take (k + 1)) b) payload tag s0 (k + 1) := by
  induction k with
  | zero =>
    rw [receiveFrom_packet_succ .driver (by omega), List.take_zero, receiveFrom_nil]
    exact midPacket_one hlen hfit hk
  | succ k ih =>
    rw [receiveFrom_packet_succ .driver (by omega)]
    exact (ih (by omega)).next (by omega) hlen hfit hk

/-- A whole packet, delivered in order. -/
theorem receiveFrom_packet (hlen : payload.length ≤ 64256) (hfit : payload.length ≤ b.params.reasmCap) :
    PacketDone b (receiveFrom .driver (packet payload tag s0) b) payload tag s0 := by
  obtain ⟨m, hm⟩ := Nat.exists_eq_succ_of_ne_zero (packetFrames_ne_zero payload.length)
  rw [← List.take_of_length_le ((length_packet payload tag s0).trans hm).le, receiveFrom_packet_succ .driver (by omega)]
  cases m with
  | zero => exact packetDone_single hlen hfit hm
  | succ m => exact (receiveFrom_take_midPacket hlen hfit (by omega)).last (by omega) hlen hfit hm

/-- With every answer `Ok`, the frames handed over are the whole packet. -/
theorem framesIn_of_served {a a' : State} {i : Instr} (hs : Segments a i payload tag)
    (hl : payload.length ≤ a.params.segMaxLen)
    (hok : ∀ j < packetFrames payload.length, a.callsAt j = [] ∧ a.answer j = some .ok) (h : exec i a = .next a') :
    framesIn (newOutputs a a') = packet payload tag a.outSeqNum := by
  have hserves : ServesOk a (packetFrames payload.length) :=
    fun j hj => ⟨onlyFrames_of_quiet (hok j hj).1, (hok j hj).2⟩
  rw [exec_segments_allOk hs hl hserves] at h
  cases h
  rw [framesIn_handedOver_endWith (Nat.le_refl _), List.take_of_length_le (length_packet ..).le]

end

/-- Settles O46: what is handed over is the whole packet, and the receiver is in the middle of it until its last frame. -/
theorem roundTrip : Obligations.RoundTrip := by
  intro a a' b i payload tag hs _ hwf hl hfit hok h
  have hdone := receiveFrom_packet (tag := tag) (s0 := a.outSeqNum) (length_le_of_fits hwf hfit) hfit
  rw [framesIn_of_served hs hl hok h, receiveAll_eq]
  exact ⟨_, rfl, hdone.outputs, hdone.phase, hdone.inSeqNum, hdone.declLen, hdone.rxKind, hdone.outSeqNum⟩

/-! ## Frames out of sequence (R114) -/

/-- The answers to frames that are all out of sequence. -/
def gapAnswers (frames : List (List Byte)) : List Output :=
  frames.map fun frame => .returned .driver (.rx (.sequenceGap (frameSeq frame)) false)

/-- Continuation frames out of sequence, whatever their number: each is a gap, and nothing else changes. -/
theorem receiveFrom_gaps {frames : List (List Byte)} {s : State}
    (h : ∀ frame ∈ frames, 4 ≤ frame.length ∧ frame.length ≤ 255 ∧ frameIsCont frame = true ∧
      frameSeq frame ≠ s.inSeqNum) :
    receiveFrom .driver frames s = { s with outputs := s.outputs ++ gapAnswers frames } := by
  induction frames generalizing s with
  | nil => simp [gapAnswers]
  | cons frame rest ih =>
    obtain ⟨h4, h255, hc, hseq⟩ := h frame (by simp)
    rw [receiveFrom_cons, rxFrame_gap h4 h255 hc hseq,
      ih (s := s.emit _) fun f hf => h f (List.mem_cons_of_mem _ hf)]
    simp [gapAnswers, State.emit]

/-- The frames behind frame `k` are out of sequence for a receiver that waits for frame `k`. -/
theorem receiveFrom_after_loss {payload : List Byte} {tag : Nibble} {s0 : Byte} {k : Nat} {s : State}
    (hlen : payload.length ≤ 64256) (hseq : s.inSeqNum = s0 + BitVec.ofNat 8 k) :
    receiveFrom .driver ((packet payload tag s0).drop (k + 1)) s =
      { s with outputs := s.outputs ++ gapAnswers ((packet payload tag s0).drop (k + 1)) } := by
  apply receiveFrom_gaps
  intro frame hframe
  obtain ⟨n, hn⟩ := List.mem_iff_getElem?.mp hframe
  rw [List.getElem?_drop] at hn
  have hlt : k + 1 + n < packetFrames payload.length := by
    simpa [length_packet] using (List.getElem?_eq_some_iff.mp hn).1
  have h256 := packetFrames_le hlen
  rw [eq_packetFrame_of_getElem? hn, hseq, ← packetFrame_seq (payload := payload) (tag := tag)]
  obtain ⟨h4, h255⟩ := packetFrame_length_bounds (payload := payload) (tag := tag) (s0 := s0) (k + 1 + n)
  exact ⟨h4, h255, packetFrame_isCont (by omega), (packetFrame_seq_ne (by omega) (by omega)).symm⟩

/-- Settles O47: after `k` frames the receiver is in the middle of the packet and waits for frame `k`; if it never comes,
every later frame is a gap. -/
theorem lossIsRejectedNotSpliced : Obligations.LossIsRejectedNotSpliced := by
  intro b payload tag s0 k hwf hfit hk
  have hlen := length_le_of_fits hwf hfit
  refine ⟨fun hk1 => ?later, fun hk0 hseq => ?first⟩
  case later =>
    obtain ⟨j, rfl⟩ := Nat.exists_eq_add_of_le' hk1
    have hmid := receiveFrom_take_midPacket (b := b) (tag := tag) (s0 := s0) hlen hfit hk
    exact ⟨_, _, receiveAll_eq _ _, hmid.phase, hmid.inSeqNum, hmid.outputs, receiveAll_eq _ _,
      receiveFrom_after_loss hlen hmid.inSeqNum⟩
  case first =>
    rw [receiveAll_eq]
    exact congrArg _ (receiveFrom_after_loss (k := 0) hlen (by simpa using hseq))

end Sys2Proof.Machine
end

section
/-! PROOFS. The exceptions family: what a rejection leaves as it was (R132, R134), what a finished operation has
sent out and to whom (R12, R138, R153), the block between operations (R143), and the codes of R130 and R23. -/

namespace Sys2Proof.Machine

open Sys2Proof

/-! ## Codes (R130, R23) and the block between operations (R143) -/

/-- Settles O48: the table of R130 and the encoding of R23, row by row. -/
theorem statusAndPhaseCodes : Obligations.StatusAndPhaseCodes :=
  ⟨fun _ _ _ => ⟨rfl, rfl, rfl, rfl, rfl, rfl, rfl, rfl⟩, rfl, rfl⟩

/-- Settles O3: with an empty queue there is nothing to fetch. -/
theorem stepWithNothingPendingHoldsState : Obligations.StepWithNothingPendingHoldsState :=
  fun _ => step_idle

/-! ## A rejected frame (R132) -/

/-- Settles O35: each of the three receiving instructions is `RX.FRAME`, which rejects with its result as the only
trace, or accepts with `Ok`. -/
theorem rejectedFrameChangesNothing : Obligations.RejectedFrameChangesNothing := by
  intro s t frame i hr h
  obtain rfl : rxFrame .driver frame s = t := Host.Outcome.next.inj ((exec_receives hr s).symm.trans h)
  rcases rxFrame_rejects_or_accepts .driver frame s with ⟨st, hrej⟩ | ⟨⟨completed, hlast⟩, _⟩
  · rw [hrej]
    exact ⟨st, false, by simp, fun _ => rfl⟩
  · exact ⟨.ok, completed, hlast, fun hne => absurd rfl hne⟩

/-! ## `ReassemblyOverflow` fails closed (R134) -/

theorem newOutputs_eq {s t : State} {new : List Output} (h : t.outputs = s.outputs ++ new) : newOutputs s t = new := by
  rw [newOutputs, h, List.drop_left]

section
variable {caller : Caller} {frame : List Byte} {s : State}

/-- From `s` to `t` nothing was written, and the answer `ReassemblyOverflow` names a size over the capacity. -/
def OverflowsClosed (caller : Caller) (s t : State) : Prop :=
  ∀ n, Output.returned caller (.rx (.reassemblyOverflow n) false) ∈ newOutputs s t →
    t.rbuf = s.rbuf ∧ s.params.reasmCap < n

/-- A result that is no `ReassemblyOverflow`, whatever is sent out before it. -/
theorem OverflowsClosed.of_ok {t : State} {own : List Output} {completed : Bool}
    (h : t.outputs = s.outputs ++ (own ++ [.returned caller (.rx .ok completed)]))
    (hown : ∀ r, Output.returned caller r ∉ own) : OverflowsClosed caller s t := by
  intro n hn
  simp [newOutputs_eq h, hown] at hn

theorem OverflowsClosed.emit {st : Status} (h : ∀ n, st = .reassemblyOverflow n → s.params.reasmCap < n) :
    OverflowsClosed caller s (s.emit (.returned caller (.rx st false))) := by
  intro n hn
  simp only [newOutputs_eq (State.emit_outputs ..), List.mem_singleton, Output.returned.injEq, Result.rx.injEq,
    and_true, true_and] at hn
  exact ⟨rfl, h n hn.symm⟩

theorem leadFrame_overflowsClosed (seq : Byte) (tag : Nibble) (length : Half) (body : List Byte) :
    OverflowsClosed caller s (leadFrame caller seq tag length body s) := by
  rcases leadFrame_cases caller seq tag length body s
    with ⟨hover, h⟩ | ⟨_, _, h⟩ | ⟨_, _, _, h⟩ | ⟨_, _, _, h⟩ <;> rw [h]
  · exact .emit (by simp [hover])
  · exact .emit (by simp)
  · exact .of_ok (own := [.dispatch _ _]) (State.complete_outputs ..) (by simp)
  · exact .of_ok (own := []) rfl (by simp)

theorem contFrame_overflowsClosed (seq leadRef : Byte) (body : List Byte) :
    OverflowsClosed caller s (contFrame caller seq leadRef body s) := by
  rcases contFrame_cases caller seq leadRef body s with ⟨_, h⟩ | ⟨_, hover, h⟩ | ⟨_, _, _, h⟩ | ⟨_, _, _, h⟩ <;> rw [h]
  · exact .of_ok (own := []) rfl (by simp)
  · exact .emit (by simp [hover])
  · exact .of_ok (own := [.dispatch _ _]) (State.complete_outputs ..) (by simp)
  · exact .of_ok (own := []) rfl (by simp)

theorem rxFrame_overflowsClosed : OverflowsClosed caller s (rxFrame caller frame s) := by
  rcases rxFrame_cases caller frame s with ⟨_, h⟩ | ⟨_, _, _, _, h⟩ | ⟨_, _, _, h⟩ | ⟨_, _, _, _, h⟩ <;> rw [h]
  · exact .emit (by simp)
  · exact .emit (by simp)
  · exact leadFrame_overflowsClosed _ _ _ _
  · exact contFrame_overflowsClosed _ _ _

/-- A continuation frame accepted into a packet is written whole. -/
theorem rxFrame_cont_read_inside (hc : frameIsCont frame = true) (hphase : s.phase = .accumulating)
    (hok : ∃ c, (rxFrame caller frame s).outputs.getLast? = some (.returned caller (.rx .ok c)))
    {n : Nat} (hn : n < (frameBody frame).length) :
    (rxFrame caller frame s).rbuf.read (fragBase (frameSeq frame) (frameLeadRef frame) + n) =
      (frameBody frame)[n]? := by
  revert hok
  apply rxFrame_of_ends caller frame s
    (fun t => (∃ c, t.outputs.getLast? = some (.returned caller (.rx .ok c))) →
      t.rbuf.read (fragBase (frameSeq frame) (frameLeadRef frame) + n) = (frameBody frame)[n]?)
  case reject => exact fun st hst hok => absurd hok (by simp [hst])
  case orphan => simp [hphase]
  case contDone => exact fun _ _ _ _ _ => read_acceptCont_inside hn
  case contOpen => exact fun _ _ _ _ _ => read_acceptCont_inside hn
  all_goals simp [hc]

/-- An accepted leading frame has a body as long as it has to write, and writes it. -/
theorem rxFrame_lead_read_inside (hc : frameIsCont frame = false)
    (hok : ∃ c, (rxFrame caller frame s).outputs.getLast? = some (.returned caller (.rx .ok c))) :
    leadSpan (frameLength frame) ≤ (frameBody frame).length ∧
      ∀ n < leadSpan (frameLength frame), (rxFrame caller frame s).rbuf.read n = (frameBody frame)[n]? := by
  revert hok
  apply rxFrame_of_ends caller frame s
    (fun t => (∃ c, t.outputs.getLast? = some (.returned caller (.rx .ok c))) →
      leadSpan (frameLength frame) ≤ (frameBody frame).length ∧
        ∀ n < leadSpan (frameLength frame), t.rbuf.read n = (frameBody frame)[n]?)
  case reject => exact fun st hst hok => absurd hok (by simp [hst])
  case leadDone => exact fun _ _ hb _ _ => ⟨hb, fun _ => read_acceptLead_inside (frameSeq frame) (frameKind frame) hb⟩
  case leadOpen => exact fun _ _ hb _ _ => ⟨hb, fun _ => read_acceptLead_inside (frameSeq frame) (frameKind frame) hb⟩
  all_goals simp [hc]

end

/-- The capacity and every byte at or past it are the same (R134). -/
def KeepsPastCap (s t : State) : Prop :=
  t.params.reasmCap = s.params.reasmCap ∧ ∀ a ≥ s.params.reasmCap, t.rbuf.read a = s.rbuf.read a

theorem KeepsPastCap.refl (s : State) : KeepsPastCap s s := ⟨rfl, fun _ _ => rfl⟩

theorem KeepsPastCap.trans {s t u : State} (hst : KeepsPastCap s t) (htu : KeepsPastCap t u) : KeepsPastCap s u :=
  ⟨htu.1.trans hst.1, fun a ha => (htu.2 a (hst.1 ▸ ha)).trans (hst.2 a ha)⟩

theorem acceptLead_keepsPastCap (seq : Byte) (tag : Nibble) {length : Half} {body : List Byte} {s : State}
    (hcap : length.toNat ≤ s.params.reasmCap) :
    KeepsPastCap s (acceptLead seq tag length body s) :=
  ⟨rfl, fun _ ha => read_acceptLead_outside seq tag ((Nat.min_le_left _ _).trans (hcap.trans ha))⟩

theorem acceptCont_keepsPastCap {seq leadRef : Byte} {body : List Byte} {s : State}
    (hend : fragEnd seq leadRef body ≤ s.params.reasmCap) : KeepsPastCap s (acceptCont seq leadRef body s) :=
  ⟨rfl, fun _ ha => read_acceptCont_outside (.inr (hend.trans ha))⟩

/-- Only the two accepting writes touch `rbuf`. -/
theorem rxFrame_keepsPastCap (caller : Caller) (frame : List Byte) (s : State) :
    KeepsPastCap s (rxFrame caller frame s) := by
  apply rxFrame_of_ends caller frame s (KeepsPastCap s)
  case reject => exact fun _ _ => .refl s
  case orphan => exact fun _ _ => .refl s
  case leadDone => exact fun _ hcap _ _ => acceptLead_keepsPastCap (frameSeq frame) (frameKind frame) hcap
  case leadOpen => exact fun _ hcap _ _ => acceptLead_keepsPastCap (frameSeq frame) (frameKind frame) hcap
  case contDone => exact fun _ _ hend _ => acceptCont_keepsPastCap hend
  case contOpen => exact fun _ _ hend _ => acceptCont_keepsPastCap hend

theorem receiveFrom_keepsPastCap (caller : Caller) (frames : List (List Byte)) (s : State) :
    KeepsPastCap s (receiveFrom caller frames s) := by
  induction frames generalizing s with
  | nil => exact .refl s
  | cons frame rest ih => exact (rxFrame_keepsPastCap caller frame s).trans (ih _)

theorem exec_keepsPastCap {s t : State} {i : Instr} (h : exec i s = .next t) : KeepsPastCap s t := by
  rcases exec_cases h with ⟨payload, tag, hs⟩ | ⟨_, rfl⟩ | ⟨frame, _, rfl⟩
  · obtain ⟨m, x, turns, calls, outs, rfl⟩ := exec_segments_around hs h
    exact receiveFrom_keepsPastCap .sink (s.nestedFrames m) s
  · exact .refl s
  · exact rxFrame_keepsPastCap .driver frame s

/-- Settles O38: an overflow is a rejection that names the size, and both writes are whole and end within the
capacity. -/
theorem overflowFailsClosed : Obligations.OverflowFailsClosed := by
  refine ⟨fun s t frame n h => ?overflow, fun s t i => exec_keepsPastCap, fun s t frame h hc hphase hok n => ?cont,
    fun s t frame h hc hok => ?lead⟩ <;> obtain rfl : rxFrame .driver frame s = t := Host.Outcome.next.inj h
  case overflow => exact rxFrame_overflowsClosed n
  case cont => exact rxFrame_cont_read_inside hc hphase hok
  case lead => exact rxFrame_lead_read_inside hc hok

/-! ## What a finished `SEG.*` has sent out, in order (R138, R153) -/

/-- The outputs of handing over the first `m` frames of a packet: each frame, and behind it those of the `RX.FRAME`
calls nested in its `Transmit`. -/
def sentInOrder (s : State) (payload : List Byte) (tag : Nibble) (m : Nat) : List Output :=
  (List.range m).flatMap fun j => .transmit (packetFrame payload tag s.outSeqNum j) :: s.nestedOutputs j

theorem handedOver_sentInOrder (payload : List Byte) (tag : Nibble) (m : Nat) (s : State) :
    (handedOver payload tag s.outSeqNum m 0 s).outputs = s.outputs ++ sentInOrder s payload tag m := by
  simp only [handedOver_trace, Nat.zero_add, segFrame_eq, sentInOrder]

theorem exec_segments_sentInOrder {s t : State} {i : Instr} {payload : List Byte} {tag : Nibble}
    (hs : Segments s i payload tag) (h : exec i s = .next t) :
    ∃ st, t.outputs = s.outputs ++ (sentInOrder s payload tag (framesIn (newOutputs s t)).length
      ++ [.returned .driver (.status st)]) := by
  rcases exec_segments_next hs h with ⟨_, rfl⟩ | ⟨_, m, st, hm, _, _, _, rfl, _⟩
  · exact ⟨.payloadTooLarge payload.length,
      by simp [newOutputs, framesIn, Output.frame?, List.filterMap_cons, sentInOrder]⟩
  · refine ⟨st, ?_⟩
    rw [framesIn_handedOver_endWith hm, List.length_take, length_packet, Nat.min_eq_left hm]
    simp [handedOver_sentInOrder]

/-- One `RX.FRAME` for the sink's code returns it one result. -/
theorem rxFrame_sinkResults (frame : List Byte) (s : State) :
    ∃ own, (rxFrame .sink frame s).outputs = s.outputs ++ own ∧ (own.filter Output.isSinkResult).length = 1 := by
  obtain ⟨st, completed, h⟩ := rxFrame_outputs .sink frame s
  refine ⟨_, h, ?_⟩
  cases completed <;> rfl

theorem receiveFrom_sinkResults (frames : List (List Byte)) (s : State) :
    ∃ new, (receiveFrom .sink frames s).outputs = s.outputs ++ new ∧
      (new.filter Output.isSinkResult).length = frames.length := by
  induction frames generalizing s with
  | nil => exact ⟨[], by simp, rfl⟩
  | cons frame rest ih =>
    obtain ⟨own, hown, hone⟩ := rxFrame_sinkResults frame s
    obtain ⟨new, hnew, hrest⟩ := ih (rxFrame .sink frame s)
    refine ⟨own ++ new, by rw [receiveFrom_cons, hnew, hown, List.append_assoc], ?_⟩
    rw [List.filter_append, List.length_append, hone, hrest, List.length_cons, Nat.add_comm]

/-- The nested outputs of turn `j` are those of its own frames, received where the turns before it leave off. -/
theorem State.nestedOutputs_eq (s : State) (j : Nat) :
    s.nestedOutputs j = newOutputs (receiveFrom .sink (s.nestedFrames j) s)
      (receiveFrom .sink ((s.callsAt j).filterMap Request.inboundFrame) (receiveFrom .sink (s.nestedFrames j) s)) := by
  rw [State.nestedOutputs, nestedFrames_succ, receiveFrom_append]

/-- Settles O21: the trace of `handedOver` behind its status, and of each turn what its frames send out for the sink. -/
theorem nestedResultsGoToTheSink : Obligations.NestedResultsGoToTheSink := by
  refine ⟨fun s t i payload tag hs h => ?trace, fun s j => ?nested⟩
  case trace =>
    obtain ⟨st, hout⟩ := exec_segments_sentInOrder hs h
    exact ⟨st, newOutputs_eq hout⟩
  case nested =>
    rw [State.nestedOutputs_eq]
    generalize receiveFrom .sink (s.nestedFrames j) s = u
    obtain ⟨new, hnew, hframes, howner⟩ :=
      receiveFrom_outputs .sink ((s.callsAt j).filterMap Request.inboundFrame) u
    obtain ⟨new', hnew', hcount⟩ := receiveFrom_sinkResults ((s.callsAt j).filterMap Request.inboundFrame) u
    obtain rfl : new = new' := List.append_cancel_left (hnew.symm.trans hnew')
    rw [newOutputs_eq hnew]
    exact ⟨fun r hr => (nomatch howner _ _ hr), hframes, hcount⟩

/-! ## No output is taken back (R12, R132) -/

theorem exec_outputs_prefix {s t : State} {i : Instr} (h : exec i s = .next t) : s.outputs <+: t.outputs := by
  rcases exec_cases h with ⟨payload, tag, hs⟩ | ⟨_, rfl⟩ | ⟨frame, _, rfl⟩
  · obtain ⟨_, hout⟩ := exec_segments_sentInOrder hs h
    exact ⟨_, hout.symm⟩
  · exact List.prefix_append _ _
  · obtain ⟨own, hown, _⟩ := rxFrame_own .driver frame s
    exact ⟨own, hown.symm⟩

/-- Settles O41: a step holds its state, runs one instruction or answers a request it turns away; each only adds
outputs. -/
theorem outputsAreNeverRecalled : Obligations.OutputsAreNeverRecalled := by
  intro s t h
  rcases step_cases h with ⟨_, rfl⟩ | ⟨i, he⟩ | ⟨r, rfl⟩
  · exact List.prefix_rfl
  · exact exec_outputs_prefix (s := s.dropRequest) he
  · exact List.prefix_append _ _

end Sys2Proof.Machine
end

section
/-! PROOFS. The reset and hazards family: what `RESET` and power-on leave (R150, R151), the parameters (R152), and the calls
the sink's code makes from inside `Transmit` (R153, D21). -/

namespace Sys2Proof.Machine

open Sys2Proof

/-! ## `RESET` and power-on (R150) -/

/-- Settles O12: `RESET` is the update of the five registers and its result, and nothing is written after power-on. -/
theorem resetEffect : Obligations.ResetEffect :=
  ⟨fun s => exec_reset s, rfl, rfl, rfl, rfl, rfl, fun _ => Memory.byteAt_unwritten rfl⟩

/-! ## Continuation frames after `RESET` (R151) -/

section
variable {caller : Caller} {frame : List Byte} {s : State}

/-- A continuation frame in sequence that finds the reassembler idle: an orphan. -/
theorem rxFrame_orphan (h4 : 4 ≤ frame.length) (h255 : frame.length ≤ 255) (hc : frameIsCont frame = true)
    (hseq : frameSeq frame = s.inSeqNum) (hphase : s.phase = .idle) :
    rxFrame caller frame s = (s.expectAfter (frameSeq frame)).emit (.returned caller (.rx .ok false)) := by
  rw [rxFrame_cont h4 h255 hc hseq, contFrame_orphan hphase]

end

/-- Settles O14: `RESET` leaves `inSeqNum` 0x00 and `phase` Idle, so `seq` alone tells an orphan from a gap. -/
theorem afterResetContinuationsAreOrphansOrGaps : Obligations.AfterResetContinuationsAreOrphansOrGaps := by
  intro s t frame hreset h4 h255 hc
  rw [exec_reset] at hreset
  cases hreset
  refine ⟨fun hseq => ?orphan, fun hseq => ?gap⟩ <;> rw [exec_rxFrame]
  case orphan =>
    rw [rxFrame_orphan h4 h255 hc hseq rfl, hseq]
    rfl
  case gap =>
    rw [rxFrame_gap h4 h255 hc hseq]
    rfl

/-! ## The parameters (R152, R7) -/

theorem exec_params {s t : State} {i : Instr} (h : exec i s = .next t) : t.params = s.params := by
  rcases exec_cases h with ⟨payload, tag, hs⟩ | ⟨_, rfl⟩ | ⟨frame, _, rfl⟩
  · obtain ⟨m, x, turns, calls, outs, rfl⟩ := exec_segments_around hs h
    obtain ⟨_, hparams, _⟩ := receiveFrom_keeps .sink (s.nestedFrames m) s
    exact hparams
  · rfl
  · exact rxFrame_params .driver frame s

/-- Settles O40: a step holds its state, runs one instruction or answers a request it turns away; none writes `params`. -/
theorem parametersNeverChange : Obligations.ParametersNeverChange := by
  intro s t h
  rcases step_cases h with ⟨_, rfl⟩ | ⟨i, he⟩ | ⟨r, rfl⟩
  · rfl
  · exact exec_params (s := s.dropRequest) he
  · rfl

/-! ## Which requests are an `RX.FRAME` (R47, R70) -/

section
variable {r : Request} {i : Instr} {frame : List Byte}

/-- The operations R153 refuses from inside `Transmit`. -/
def ResetsOrSegments (i : Instr) : Prop := i = .reset ∨ ∃ payload, i = .segReport payload ∨ i = .segSchema payload

theorem Receives.not_resetsOrSegments (h : Receives i frame) : ¬ResetsOrSegments i := by
  rintro (rfl | ⟨payload, rfl | rfl⟩) <;> rcases h with h | h <;> cases h

theorem decodePayload_ok {make : List Byte → Instr} {payload : List Byte}
    (h : decodePayload make payload = .ok i) : i = make payload := by
  unfold decodePayload at h
  split at h <;> cases h
  rfl

theorem decodeCommand_rxFrame (operand : List Byte) : decodeCommand (opRxFrame :: operand) = .ok (.rxFrame operand) := rfl

/-- R70: of the four selectors, every one but that of `RX.FRAME` is of `RESET` or of a `SEG.*`. -/
theorem resetsOrSegments_of_decodeCommand {op : Byte} {operand : List Byte} (hop : op ≠ opRxFrame)
    (hd : decodeCommand (op :: operand) = .ok i) : ResetsOrSegments i := by
  rw [decodeCommand, if_neg hop] at hd
  split at hd
  · exact .inr ⟨operand, .inl (decodePayload_ok hd)⟩
  · split at hd
    · exact .inr ⟨operand, .inr (decodePayload_ok hd)⟩
    · split at hd
      · split at hd <;> cases hd
        exact .inl rfl
      · cases hd

/-- A request that decodes is an `RX.FRAME`, and then its instruction receives that frame, or one of the others. -/
theorem decode_inboundFrame_cases (hd : decode r = .ok i) :
    (∃ frame, r.inboundFrame = some frame ∧ Receives i frame) ∨ (r.inboundFrame = none ∧ ResetsOrSegments i) := by
  match r with
  | ⟨.source, frame⟩ =>
    rcases decode_source_cases frame with ⟨_, herr⟩ | ⟨j, hj, hr⟩
    · cases herr.symm.trans hd
    · cases hj.symm.trans hd
      exact .inl ⟨frame, rfl, hr⟩
  | ⟨.command, []⟩ => cases hd
  | ⟨.command, op :: operand⟩ =>
    by_cases hop : op = opRxFrame
    · subst hop
      cases (decodeCommand_rxFrame operand).symm.trans hd
      exact .inl ⟨operand, rfl, .inl rfl⟩
    · exact .inr ⟨if_neg hop, resetsOrSegments_of_decodeCommand hop hd⟩

theorem inboundFrame_eq_none_iff (hd : decode r = .ok i) : r.inboundFrame = none ↔ ResetsOrSegments i := by
  rcases decode_inboundFrame_cases hd with ⟨frame, hf, hr⟩ | ⟨hf, hi⟩
  · exact iff_of_false (by simp [hf]) hr.not_resetsOrSegments
  · exact iff_of_true hf hi

end

/-! ## The caller of an `RX.FRAME` shows in its result alone (R138) -/

section
variable (c d : Caller) (s : State) (x : Byte) (pending : List Request) (turns : List SinkTurn) (calls : Nat)
  (outs : List Output)

theorem leadFrame_around_caller (seq : Byte) (tag : Nibble) (length : Half) (body : List Byte) :
    (leadFrame c seq tag length body s).around x pending turns calls outs =
      (leadFrame d seq tag length body s).around x pending turns calls outs := by
  rcases leadFrame_cases c seq tag length body s with ⟨hover, h⟩ | ⟨hcap, hb, h⟩ | ⟨hcap, hb, hl, h⟩ | ⟨hcap, hb, hl, h⟩
  · rw [h, leadFrame_overflow hover]
    rfl
  · rw [h, leadFrame_short hcap hb]
    rfl
  · rw [h, leadFrame_completes hcap hb hl]
    rfl
  · rw [h, leadFrame_accumulates hcap hb hl]
    rfl

theorem contFrame_around_caller (seq leadRef : Byte) (body : List Byte) :
    (contFrame c seq leadRef body s).around x pending turns calls outs =
      (contFrame d seq leadRef body s).around x pending turns calls outs := by
  rcases contFrame_cases c seq leadRef body s with ⟨hp, h⟩ | ⟨hp, hover, h⟩ | ⟨hp, hend, hd, h⟩ | ⟨hp, hend, hd, h⟩
  · rw [h, contFrame_orphan hp]
    rfl
  · rw [h, contFrame_overflow hp hover]
    rfl
  · rw [h, contFrame_completes hp hend hd]
    rfl
  · rw [h, contFrame_continues hp hend hd]
    rfl

theorem rxFrame_around_caller (frame : List Byte) :
    (rxFrame c frame s).around x pending turns calls outs = (rxFrame d frame s).around x pending turns calls outs := by
  rcases rxFrame_cases c frame s with ⟨hlen, h⟩ | ⟨h4, h255, hc, hseq, h⟩ | ⟨h4, h255, hc, h⟩ | ⟨h4, h255, hc, hseq, h⟩
  · rw [h, rxFrame_malformed hlen]
    rfl
  · rw [h, rxFrame_gap h4 h255 hc hseq]
    rfl
  · rw [h, rxFrame_lead h4 h255 hc, leadFrame_around_caller c d]
  · rw [h, rxFrame_cont h4 h255 hc hseq, contFrame_around_caller c d]

/-- The same frames received for another caller, in other surroundings: the reassembler ends the same. -/
theorem receiveFrom_around_caller (frames : List (List Byte)) :
    ∃ outs', receiveFrom c frames (s.around x pending turns calls outs) =
      (receiveFrom d frames s).around x pending turns calls outs' := by
  induction frames generalizing s outs with
  | nil => exact ⟨outs, rfl⟩
  | cons frame rest ih =>
    obtain ⟨new, _, haround⟩ := rxFrame_around c frame s
    rw [receiveFrom_cons, receiveFrom_cons, haround, rxFrame_around_caller c d]
    exact ih _ _

theorem sameReassembler_around : s.SameReassembler (s.around x pending turns calls outs) :=
  ⟨rfl, rfl, rfl, rfl, fun _ => rfl⟩

/-- To the reassembler it is one whether the driver or the sink's code calls `RX.FRAME`. -/
theorem receiveFrom_sameReassembler (frames : List (List Byte)) :
    (receiveFrom c frames s).SameReassembler (receiveFrom d frames s) := by
  obtain ⟨outs, h⟩ := receiveFrom_around_caller d c s s.outSeqNum s.pending s.sinkTurns s.sinkCalls s.outputs frames
  have hs : s.around s.outSeqNum s.pending s.sinkTurns s.sinkCalls s.outputs = s := rfl
  rw [hs] at h
  rw [h]
  exact sameReassembler_around ..

end

theorem sameReassembler_trans {s t u : State} (hst : s.SameReassembler t) (htu : t.SameReassembler u) :
    s.SameReassembler u := by
  obtain ⟨hin, hphase, hdecl, hkind, hread⟩ := hst
  obtain ⟨hin', hphase', hdecl', hkind', hread'⟩ := htu
  exact ⟨hin'.trans hin, hphase'.trans hphase, hdecl'.trans hdecl, hkind'.trans hkind,
    fun a => (hread' a).trans (hread a)⟩

/-! ## Calls from inside `Transmit` (R153) -/

section
variable {s t : State} {i : Instr} {payload : List Byte} {tag : Nibble}

/-- A call other than `RX.FRAME` during the `Transmit` of frame `k`, the frames before it having been answered `Ok`. -/
theorem exec_segments_overlapAt (hs : Segments s i payload tag) (hl : payload.length ≤ s.params.segMaxLen) {k : Nat}
    (hk : k < packetFrames payload.length) (hok : ServesOk s k) (hc : ¬OnlyFrames (s.callsAt k)) :
    exec i s = .refused .overlappingOperation := by
  rw [exec_segments_sends hs hl, sendFrames_overlapAt hk hok hc]

/-- The reassembler has received the nested frames of exactly those `Transmit` calls that were made. -/
theorem exec_segments_receives_nested (hs : Segments s i payload tag) (h : exec i s = .next t) :
    (receiveFrom .sink (s.nestedFrames (framesIn (newOutputs s t)).length) s).SameReassembler t := by
  rcases exec_segments_next hs h with ⟨_, rfl⟩ | ⟨_, m, st, hm, _, _, _, rfl, _⟩
  · have hnone : framesIn (newOutputs s (s.emit (.returned .driver (.status (.payloadTooLarge payload.length))))) = [] := by
      rw [newOutputs_eq (State.emit_outputs ..)]
      rfl
    rw [hnone]
    exact sameReassembler_around s s.outSeqNum s.pending s.sinkTurns s.sinkCalls _
  · rw [framesIn_handedOver_endWith hm, List.length_take, length_packet, Nat.min_eq_left hm]
    obtain ⟨x, turns, calls, outs, hu⟩ :=
      handedOver_around (payload := payload) (tag := tag) (s0 := s.outSeqNum) m 0 s
    rw [hu]
    exact sameReassembler_around ..

end

/-- Settles O20: the decoder tells `RX.FRAME` from the operations refused; the first overlapping call ends the loop; and the
nested frames reach the reassembler as they would from the driver. -/
theorem callsFromInsideTransmit : Obligations.CallsFromInsideTransmit := by
  refine ⟨fun r i => inboundFrame_eq_none_iff, fun s i payload tag k hs hl hk hserved hcall => ?refused,
    fun s t i payload tag hs h => ?nested⟩
  case refused =>
    obtain ⟨r, hr, hnone⟩ := hcall
    exact exec_segments_overlapAt hs hl hk (fun j hj => (hserved j hj).symm) fun honly => honly r hr hnone
  case nested =>
    exact ⟨_, receiveAll_eq _ _,
      sameReassembler_trans (receiveFrom_sameReassembler .driver .sink s _) (exec_segments_receives_nested hs h)⟩

end Sys2Proof.Machine
end

section
/-! PROOFS. The remaining statements: the decoder and the encoder are inverse to each other (R60 to R63, R70), the words
of the encoding tables, bytes that are no command, the state after power-on, and a sink that never returns (D1, I5). -/

namespace Sys2Proof

/-! ## The payload of a command (R70) -/

theorem decodePayload_eq_ok_iff {make : List Byte → Instr} {payload : List Byte} {i : Instr} :
    decodePayload make payload = .ok i ↔ payload.length ≤ 65535 ∧ make payload = i := by
  unfold decodePayload
  split
  case isTrue hlong => exact iff_of_false (by simp) fun h => absurd h.1 (Nat.not_le.mpr hlong)
  case isFalse hfits => simp [Nat.not_lt.mp hfits]

/-! ## Decoding what was encoded -/

section
variable (seq : Byte) (kindTag : Nibble) (reserved : BitVec 3) (length : Half) (unused leadRef : Byte)
  {body : List Byte}

theorem decodeFrame_leadBytes (h : body.length ≤ 251) :
    decodeFrame (leadBytes seq kindTag reserved length body) =
      .ok (.frameLead seq kindTag reserved length body) := by
  rw [decodeFrame_lead (by simp) (by simpa using h) (leadBytes_cont ..)]
  simp

theorem decodeFrame_contBytes (h : body.length ≤ 251) :
    decodeFrame (contBytes seq kindTag reserved unused leadRef body) =
      .ok (.frameCont seq kindTag reserved unused leadRef body) := by
  rw [decodeFrame_cont (by simp) (by simpa using h) (contBytes_cont ..)]
  simp

end

/-- Settles O8: a command is known by its selector and keeps its operand, and a frame's fields are those it was built
from. -/
theorem decodeOfEncodeIsIdentity : Obligations.DecodeOfEncodeIsIdentity := by
  intro i hwf
  cases i with
  | segReport payload => exact decodePayload_eq_ok_iff.mpr ⟨of_decide_eq_true hwf, rfl⟩
  | segSchema payload => exact decodePayload_eq_ok_iff.mpr ⟨of_decide_eq_true hwf, rfl⟩
  | rxFrame frame => rfl
  | reset => rfl
  | frameLead seq kindTag reserved length body => exact decodeFrame_leadBytes _ _ _ _ (of_decide_eq_true hwf)
  | frameCont seq kindTag reserved unused leadRef body => exact decodeFrame_contBytes _ _ _ _ _ (of_decide_eq_true hwf)

/-! ## Encoding what was decoded -/

section
variable {i : Instr}

/-- R60, R101: a frame that decodes has 4 to 255 bytes, so its body is one that a frame can hold. -/
theorem encode_of_decodeFrame {frame : List Byte} (hd : decodeFrame frame = .ok i) :
    encode i = ⟨.source, frame⟩ ∧ i.wellFormed = true := by
  by_cases hlen : frame.length < 4 ∨ 255 < frame.length
  · cases (decodeFrame_lengthError hlen).symm.trans hd
  · have h4 : 4 ≤ frame.length := by omega
    have h255 : frame.length ≤ 255 := by omega
    have hbody : (frameBody frame).length ≤ 251 := by
      rw [length_frameBody]
      omega
    cases hc : frameIsCont frame with
    | false =>
      cases (decodeFrame_lead h4 h255 hc).symm.trans hd
      exact ⟨congrArg (Request.mk .source) (leadBytes_eta frame h4 hc), decide_eq_true hbody⟩
    | true =>
      cases (decodeFrame_cont h4 h255 hc).symm.trans hd
      exact ⟨congrArg (Request.mk .source) (contBytes_eta frame h4 hc), decide_eq_true hbody⟩

/-- R70: a command that decodes has one of the four selectors, and `RESET` nothing behind it. -/
theorem encode_of_decodeCommand {bytes : List Byte} (hd : decodeCommand bytes = .ok i) :
    encode i = ⟨.command, bytes⟩ ∧ i.wellFormed = true := by
  cases bytes with
  | nil => cases hd
  | cons op operand =>
    rw [decodeCommand] at hd
    split at hd
    case isTrue hop =>
      obtain ⟨hlen, rfl⟩ := decodePayload_eq_ok_iff.mp hd
      exact ⟨hop ▸ rfl, decide_eq_true hlen⟩
    split at hd
    case isTrue hop =>
      obtain ⟨hlen, rfl⟩ := decodePayload_eq_ok_iff.mp hd
      exact ⟨hop ▸ rfl, decide_eq_true hlen⟩
    split at hd
    case isTrue hop =>
      cases hd
      exact ⟨hop ▸ rfl, rfl⟩
    split at hd
    case isTrue hop =>
      cases operand with
      | nil =>
        cases hd
        exact ⟨hop ▸ rfl, rfl⟩
      | cons b bs => cases hd
    case isFalse => cases hd

end

/-- Settles O9: each port has its decoder, and each answers only what encodes to the bytes it was given. -/
theorem encodeOfDecodeIsIdentity : Obligations.EncodeOfDecodeIsIdentity
  | ⟨.command, _⟩, _, hd => encode_of_decodeCommand hd
  | ⟨.source, _⟩, _, hd => encode_of_decodeFrame hd

/-- Settles O1: the decoder run on each of the words. -/
theorem decodeReadsWrittenWords : Obligations.DecodeReadsWrittenWords :=
  ⟨rfl, rfl, rfl, rfl, rfl, rfl, rfl, rfl⟩

end Sys2Proof

namespace Sys2Proof.Machine

open Sys2Proof

/-! ## The step on no command, and power-on -/

/-- Settles O6: the decoder rejects both by name, and the machine answers neither rejection with a status. -/
theorem stepRefusesBytesThatAreNoCommand : Obligations.StepRefusesBytesThatAreNoCommand :=
  fun _ _ => ⟨fun hp => step_reject hp rfl, fun _ _ hp => step_reject hp rfl⟩

/-- Settles O13: the defaults of R7 are in its ranges, `rbuf` is empty and `phase` is Idle. -/
theorem powerOnStateMeetsInvariant : Obligations.PowerOnStateMeetsInvariant :=
  ⟨rfl, .nil, by simp [Memory.within, State.reset], fun hphase => Phase.noConfusion hphase⟩

/-! ## A sink that never returns (D1, I5) -/

/-- Settles O19: the frames before `k` leave the loop at frame `k`, whose `Transmit` call does not return. -/
theorem silentSinkLeavesSegmenterStuck : Obligations.SilentSinkLeavesSegmenterStuck := by
  intro s i payload tag k hs hl hk hcalls hok hsilent
  have hserves : ServesOk s k := fun j hj => ⟨hcalls j (Nat.le_of_lt hj), hok j hj⟩
  rw [exec_segments_sends hs hl, sendFrames_silentAt hk hserves (hcalls k le_rfl) hsilent]

end Sys2Proof.Machine
end
